-- ==== Sys2Proof/Word.lean ====
section
/-! DEFINITION. The word: a cell or data register holds one signed integer, the Lean type `Int` (00_scope.md R5, R9;
10_state.md R20). The spec reads it as an integer `v` with `MIN <= v <= MAX` and gives no meaning to any of its bits
(30_encoding.md R71); the range is an invariant of the state, not a type (log 1). The picture of a word as bits
(00_scope.md R8) is given here; no instruction uses it. -/

namespace Sys2Proof

/-- `bits[hi:lo]` of a two's-complement word, bit 0 the least significant (00_scope.md R8). -/
def bitSlice (v : Int) (hi lo : Nat) : Int := v / 2 ^ lo % 2 ^ (hi - lo + 1)

/-- `zext_K` of a `W`-bit pattern: its bits as a number that is not negative (00_scope.md R8). -/
def zeroExtend (width : Nat) (v : Int) : Int := v % 2 ^ width

/-- `sext_K` of a `W`-bit pattern: its bits as a signed number (00_scope.md R8). -/
def signExtend (width : Nat) (v : Int) : Int := Int.bmod v (2 ^ width)

end Sys2Proof
end

