-- ==== Sys2Proof/Config.lean ====
section
/-! DEFINITION. The parameters of the machine: the number of cells `N`, the width `W` and the three open switches
(00_scope.md R5 to R7; 92_eei_decisions.md D1 to D4 and D11). They are plain data, fixed when the machine is made. -/

namespace Sys2Proof

/-- OVERFLOW_POLICY (41_arithmetic.md R122, D2): what ADD and SUB do with a result outside `MIN .. MAX`. -/
inductive OverflowPolicy where
  /-- the result is `wrap_W` of the exact one; the default -/
  | wrap
  /-- an out-of-range result is a fatal condition (log 10) -/
  | fault
deriving DecidableEq, Repr

/-- MDR_AFTER_STA (42_load_store.md R131, D11, 90_conflicts.md C1): what MDR holds after STA. -/
inductive MdrAfterSta where
  /-- the value the target cell had before the store; the default -/
  | old
  /-- the value stored -/
  | acc
deriving DecidableEq, Repr

/-- RESET_REGS (10_state.md R37, D4): the values MAR, MDR, CIR and ACC take at reset. `zero` is the default; `given`
holds any four values, so that a claim for all of them is a claim for arbitrary reset values. -/
inductive ResetRegs where
  | zero
  | given (mar mdr cir acc : Int)
deriving DecidableEq, Repr

/-- The parameters of the step (10_state.md R38). -/
structure Config where
  /-- `N`, the number of memory cells -/
  cells : Nat := 100
  /-- `W`, the width in bits of every register and every cell -/
  width : Nat := 32
  overflow : OverflowPolicy := .wrap
  mdrAfterSta : MdrAfterSta := .old
  resetRegs : ResetRegs := .zero
deriving DecidableEq, Repr

/-- The defaults of the spec: `N = 100`, `W = 32`, every switch at its default. -/
def Config.default : Config := {}

/-- `MIN = -2^(W-1)` (00_scope.md R5). -/
def Config.minWord (c : Config) : Int := -((2 ^ (c.width - 1) : Nat) : Int)

/-- `MAX = 2^(W-1) - 1` (00_scope.md R5). -/
def Config.maxWord (c : Config) : Int := ((2 ^ (c.width - 1) : Nat) : Int) - 1

/-- `MIN <= v <= MAX`. -/
abbrev Config.InRange (c : Config) (v : Int) : Prop := c.minWord ≤ v ∧ v ≤ c.maxWord

/-- What MAR holds after reset. -/
def Config.resetMar (c : Config) : Int :=
  match c.resetRegs with
  | .zero => 0
  | .given mar _ _ _ => mar

/-- What MDR holds after reset. -/
def Config.resetMdr (c : Config) : Int :=
  match c.resetRegs with
  | .zero => 0
  | .given _ mdr _ _ => mdr

/-- What CIR holds after reset. -/
def Config.resetCir (c : Config) : Int :=
  match c.resetRegs with
  | .zero => 0
  | .given _ _ cir _ => cir

/-- What ACC holds after reset. -/
def Config.resetAcc (c : Config) : Int :=
  match c.resetRegs with
  | .zero => 0
  | .given _ _ _ acc => acc

/-- The constraints on the parameters (00_scope.md R6): `W >= 11` and `1 <= N <= MAX - 1`; reset values are words. -/
abbrev Config.Legal (c : Config) : Prop :=
  11 ≤ c.width ∧ 1 ≤ c.cells ∧ (c.cells : Int) ≤ c.maxWord - 1 ∧
  c.InRange c.resetMar ∧ c.InRange c.resetMdr ∧ c.InRange c.resetCir ∧ c.InRange c.resetAcc

end Sys2Proof
end

