-- ==== Sys2Proof/Syntax.lean ====
section
/-! DEFINITION. The ten instructions (30_encoding.md R74), one constructor for each row of opcode_table.json. -/

namespace Sys2Proof

/-- An instruction. The seven operand-taking operations carry the operand field, a direct cell address
(30_encoding.md R72). HLT carries its ignored operand digits, -99 to 99, so that no word is confused with another
(30_encoding.md R78; log 19). -/
inductive Instr where
  | hlt (field : Int)
  | add (t : Nat)
  | sub (t : Nat)
  | sta (t : Nat)
  | lda (t : Nat)
  | bra (t : Nat)
  | brz (t : Nat)
  | brp (t : Nat)
  | inp
  | out
deriving DecidableEq, Repr

end Sys2Proof
end

