-- ==== Sys2Proof/WellFormed.lean ====
section
/-! DEFINITION. Which instruction terms some word encodes (30_encoding.md R71, R72, R78). -/

namespace Sys2Proof

/-- An operand field is two decimal digits (30_encoding.md R72: "operand in [0,99] a mailbox address"). -/
def operandFits (t : Nat) : Bool := decide (t ≤ 99)

/-- The ignored digits of a HLT word (30_encoding.md R78: every word from -99 to 99 is HLT). -/
def hltFieldFits (field : Int) : Bool := decide (-99 ≤ field ∧ field ≤ 99)

/-- The instruction is the reading of some word. -/
def Instr.wellFormed : Instr → Bool
  | .hlt field => hltFieldFits field
  | .add t => operandFits t
  | .sub t => operandFits t
  | .sta t => operandFits t
  | .lda t => operandFits t
  | .bra t => operandFits t
  | .brz t => operandFits t
  | .brp t => operandFits t
  | .inp => true
  | .out => true

end Sys2Proof
end

