-- ==== Sys2Proof/Decode.lean ====
section
/-! DEFINITION. The decoder, total on all integers and rejecting by name, and after it the encoder
(30_encoding.md R70 to R82). -/

namespace Sys2Proof

/-- The values of the decoder's output and of the latch OP: the ten operations and UNKNOWN (10_state.md R30). -/
inductive Op where
  | hlt | add | sub | sta | lda | bra | brz | brp | inp | out | unknown
deriving DecidableEq, Repr

/-- Why a word is no instruction (30_encoding.md R77). -/
inductive Reserved where
  /-- 400 to 499: "4 intentionally unused/reserved" -/
  | opcodeFour
  /-- 900 and 903 to 999: "no opcode 9 is defined" -/
  | opcodeNine
  /-- 1000 and more -/
  | fourDigits
  /-- -100 and less -/
  | negative
deriving DecidableEq, Repr

/-- What a word is: one of the ten instructions, or reserved for a reason. -/
inductive Decoded where
  | instr (i : Instr)
  | reserved (r : Reserved)
deriving DecidableEq, Repr

/-- The quotient rounded toward zero (00_scope.md R10), for a positive divisor. -/
def tdiv (a b : Int) : Int := if 0 ≤ a then a / b else -((-a) / b)

/-- The remainder that goes with `tdiv` (00_scope.md R10). -/
def tmod (a b : Int) : Int := a - b * tdiv a b

/-- The immutable table of packed opcodes (30_encoding.md R74), queried by both decode and encode. -/
def opcodeTable : List (Op × Int) :=
  [(.hlt, 0), (.add, 1), (.sub, 2), (.sta, 3), (.lda, 5), (.bra, 6), (.brz, 7), (.brp, 8)]

/-- The two sentinel words (30_encoding.md R73, R74). -/
def sentinelTable : List (Op × Int) := [(.inp, 901), (.out, 902)]

/-- Opcode to operation: the lookup of decode (30_encoding.md R75). -/
def opOfQuotient (q : Int) : Op :=
  match opcodeTable.find? (fun row => row.2 == q) with
  | some row => row.1
  | none => .unknown

/-- `decode : word -> OP` (30_encoding.md R75): the quotient is looked up, and independently of that lookup a word
exactly equal to a sentinel overrides the result. -/
def decodeOp (w : Int) : Op :=
  match sentinelTable.find? (fun row => row.2 == w) with
  | some row => row.1
  | none => opOfQuotient (tdiv w 100)

/-- Which operations resolve an operand, decided by the operation and never by the field's value
(30_encoding.md R79). -/
def Op.takesOperand : Op → Bool
  | .add | .sub | .sta | .lda | .bra | .brz | .brp => true
  | .hlt | .inp | .out | .unknown => false

/-- The operand field of a packed word as a cell address (30_encoding.md R72). -/
def operandField (w : Int) : Nat := (tmod w 100).toNat

/-- Which of the reserved ranges of 30_encoding.md R77 a reserved word lies in. -/
def reservedReason (w : Int) : Reserved :=
  if w < 0 then .negative
  else if tdiv w 100 = 4 then .opcodeFour
  else if tdiv w 100 = 9 then .opcodeNine
  else .fourDigits

/-- The whole decoder: the operation of `decodeOp` with its operand field, or the reason the word is reserved. -/
def decode (w : Int) : Decoded :=
  match decodeOp w with
  | .hlt => .instr (.hlt (tmod w 100))
  | .add => .instr (.add (operandField w))
  | .sub => .instr (.sub (operandField w))
  | .sta => .instr (.sta (operandField w))
  | .lda => .instr (.lda (operandField w))
  | .bra => .instr (.bra (operandField w))
  | .brz => .instr (.brz (operandField w))
  | .brp => .instr (.brp (operandField w))
  | .inp => .instr .inp
  | .out => .instr .out
  | .unknown => .reserved (reservedReason w)

/-- The instruction a word decodes to, if it is one. -/
def Decoded.instr? : Decoded → Option Instr
  | .instr i => some i
  | .reserved _ => none

/-- The operation of an instruction. -/
def Instr.op : Instr → Op
  | .hlt _ => .hlt
  | .add _ => .add
  | .sub _ => .sub
  | .sta _ => .sta
  | .lda _ => .lda
  | .bra _ => .bra
  | .brz _ => .brz
  | .brp _ => .brp
  | .inp => .inp
  | .out => .out

/-- The operand an instruction resolves, if its operation takes one (30_encoding.md R79). -/
def Instr.operand : Instr → Option Nat
  | .add t | .sub t | .sta t | .lda t | .bra t | .brz t | .brp t => some t
  | .hlt _ | .inp | .out => none

/-- Operation to packed opcode: the lookup of encode (30_encoding.md R74). -/
def packedOpcode (op : Op) : Option Int := (opcodeTable.find? (fun row => row.1 == op)).map (·.2)

/-- Operation to sentinel word (30_encoding.md R73). -/
def sentinelWord (op : Op) : Option Int := (sentinelTable.find? (fun row => row.1 == op)).map (·.2)

/-- `encode(op, a)` of 30_encoding.md R80: a sentinel is its literal, whatever `a`; a packed operation is
`opcode*100 + a` for `0 <= a <= 99`; nothing else has a word. -/
def encodeOp (op : Op) (a : Int) : Option Int :=
  match sentinelWord op with
  | some w => some w
  | none =>
    match packedOpcode op with
    | some c => if 0 ≤ a ∧ a ≤ 99 then some (c * 100 + a) else none
    | none => none

/-- `opcode*100 + operand` (30_encoding.md R71), with the opcode from the table. -/
def pack (op : Op) (a : Int) : Int := (packedOpcode op).getD 0 * 100 + a

/-- The word of an instruction. On a well-formed instruction with an operand of 0 to 99 it is `encodeOp`; a HLT read
from a negative word goes back to that word (log 19). -/
def encode : Instr → Int
  | .hlt field => pack .hlt field
  | .add t => pack .add t
  | .sub t => pack .sub t
  | .sta t => pack .sta t
  | .lda t => pack .lda t
  | .bra t => pack .bra t
  | .brz t => pack .brz t
  | .brp t => pack .brp t
  | .inp => (sentinelWord .inp).getD 0
  | .out => (sentinelWord .out).getD 0

/-- The signed reading of the low `width` bits of a number (00_scope.md R8: two's complement, bit 0 the least
significant; log 18). -/
def wordOfBits (width n : Nat) : Int := Int.bmod n (2 ^ width)

/-- The instruction the decoder reads from the cell whose bits are `w`. An instruction is one cell (30_encoding.md
R70) and its bits above `nbits` are 0, so `nbits` says nothing that `w` does not (log 18). -/
def decodeTableWord (_nbits w : Nat) : Option Instr := (decode (wordOfBits Config.default.width w)).instr?

end Sys2Proof
end

