-- ==== Sys2Proof/Machine/State.lean ====
section
/-! DEFINITION. The state of the machine as plain data, its value after reset, and the reasons a step can stop
(10_state.md R20 to R40, 60_exceptions.md R170 to R175). -/

namespace Sys2Proof.Machine

/-- The run flag RUN (10_state.md R28). -/
inductive Run where
  | halted | running
deriving DecidableEq, Repr

/-- The values of the fault latch FAULT: the three of 10_state.md R29, and `overflow`, which is set only under
OVERFLOW_POLICY = fault (41_arithmetic.md R122, 93_implementation_defined.md U7; log 10). -/
inductive FaultLatch where
  | none | unknownOpcode | outOfBounds | overflow
deriving DecidableEq, Repr

/-- The fatal run-time conditions: the two of 60_exceptions.md R170, and `overflow` under OVERFLOW_POLICY = fault
(41_arithmetic.md R122; log 10). Each is recorded in FAULT and halts the machine; none is a stop of the model. -/
inductive Fatal where
  | unknownOpcode | outOfBounds | overflow
deriving DecidableEq, Repr

/-- An item of the input channel (10_state.md R34): a number in range, or a line that is no such number. -/
inductive InputItem where
  | int (v : Int)
  | malformed
deriving DecidableEq, Repr

/-- The memory: the cells that do not hold `Memory.unlisted`, each with its address, addresses strictly rising
(20_memory.md R50, R54: the unit is the whole cell, so the pairs hold words, not bytes; log 5). -/
abbrev Memory := List (Nat × Int)

/-- What a cell that nothing has written holds: 0 (10_state.md R37, D5; log 4). -/
def Memory.unlisted : Int := 0

/-- The complete state of the machine (10_state.md R20), with the parameters of the step beside it (R38; nothing writes
`cfg`; log 2). -/
structure State where
  cfg : Config
  /-- PC: index of the next instruction to fetch (10_state.md R23, R24) -/
  pc : Int
  /-- MAR: address most recently referenced (10_state.md R25) -/
  mar : Int
  /-- MDR: memory data register (10_state.md R26) -/
  mdr : Int
  /-- CIR: the instruction word just fetched (10_state.md R27) -/
  cir : Int
  /-- ACC: the accumulator (10_state.md R22) -/
  acc : Int
  run : Run
  fault : FaultLatch
  /-- OP: the decoder's current-operation latch (10_state.md R30; log 16) -/
  op : Op
  mem : Memory
  /-- IN: items supplied and not yet consumed (10_state.md R34, R35) -/
  input : List InputItem
  /-- OUT: the values emitted so far, oldest first (10_state.md R36) -/
  output : List Int
deriving DecidableEq, Repr

/-- The stops of a step: none. Every fatal condition of the machine is a next state (60_exceptions.md R175). -/
inductive Fault where
deriving DecidableEq, Repr

/-- The refusals of a step. -/
inductive Refusal where
  /-- Raised by an arm of `exec` whose instruction has no meaning yet. Safe. No arm raises it. -/
  | notModelled (mnemonic : String)
deriving DecidableEq, Repr

/-- The state right after reset of a machine with these parameters and these items in its input channel
(10_state.md R37, 70_reset_and_hazards.md R200). -/
def State.initial (c : Config) (items : List InputItem) : State :=
  { cfg := c, pc := 0, mar := c.resetMar, mdr := c.resetMdr, cir := c.resetCir, acc := c.resetAcc,
    run := .halted, fault := .none, op := .unknown, mem := [], input := items, output := [] }

/-- The machine of the spec's defaults right after reset, its input channel empty (log 2, 3, 4, 6). -/
def State.reset : State := State.initial Config.default []

end Sys2Proof.Machine
end

