-- ==== Sys2Proof/Machine/Ops.lean ====
section
/-! DEFINITION. The operations every instruction is built from: memory, the bounds check, raising a fatal condition, the
fetch and decode phases, and the two channels (00_scope.md R11; 20_memory.md R52; 40_sequencer.md R102 to R105;
60_exceptions.md R175). -/

namespace Sys2Proof.Machine

/-- The outcome of an instruction or of a step. -/
abbrev Out := Host.Outcome State Fault Refusal

/-- The content of the cell at an address. -/
def Memory.read : Memory → Nat → Int
  | [], _ => Memory.unlisted
  | (k, v) :: m, a => if k = a then v else Memory.read m a

/-- A cell put before a memory, left out when it holds what an unlisted cell reads as. -/
def Memory.put (a : Nat) (v : Int) (m : Memory) : Memory := if v = Memory.unlisted then m else (a, v) :: m

/-- The memory with one cell changed, in canonical form again. -/
def Memory.write : Memory → Nat → Int → Memory
  | [], a, v => Memory.put a v []
  | (k, w) :: m, a, v =>
    if a < k then Memory.put a v ((k, w) :: m)
    else if a = k then Memory.put a v m
    else (k, w) :: Memory.write m a v

/-- The canonical form: addresses strictly rising, no entry equal to what an unlisted cell reads as. -/
def Memory.wf : Memory → Bool
  | [] => true
  | (k, v) :: m => decide (v ≠ Memory.unlisted) && m.all (fun cell => decide (k < cell.1)) && Memory.wf m

/-- The bounds test of every access, `0 <= a < N` (20_memory.md R52). -/
abbrev inBounds (c : Config) (a : Int) : Prop := 0 ≤ a ∧ a < c.cells

/-- `MemRead(a, 1)` (00_scope.md R11, 42_load_store.md R133); `none` is the out-of-bounds access that did not happen. -/
def memRead (s : State) (a : Int) : Option Int :=
  if inBounds s.cfg a then some (s.mem.read a.toNat) else none

/-- `MemWrite(a, 1, v)` (00_scope.md R11, 42_load_store.md R133). -/
def memWrite (s : State) (a v : Int) : Option State :=
  if inBounds s.cfg a then some { s with mem := s.mem.write a.toNat v } else none

/-- The latch value of a fatal condition (60_exceptions.md R171, R172; log 10 for `overflow`). -/
def Fatal.latch : Fatal → FaultLatch
  | .unknownOpcode => .unknownOpcode
  | .outOfBounds => .outOfBounds
  | .overflow => .overflow

/-- The numeric code of the fault latch (10_state.md R29); the spec numbers no overflow (log 10). -/
def FaultLatch.code : FaultLatch → Option Nat
  | .none => some 0
  | .unknownOpcode => some 1
  | .outOfBounds => some 2
  | .overflow => Option.none

/-- `raise X(info)` (60_exceptions.md R175): FAULT and RUN are written and nothing else; `info` stays where it is, in MAR
or CIR. There is no handler and no return (R178, R179). -/
def raise (x : Fatal) (s : State) : State := { s with fault := x.latch, run := .halted }

/-- How a phase ends: the cycle goes on, or a fatal condition was raised and the rest of the cycle is not performed. -/
inductive PhaseEnd where
  | goesOn (s : State)
  | raised (s : State)
deriving DecidableEq, Repr

/-- `MDR <- MemRead(MAR, 1)`, the read of fetch and of operand resolution (40_sequencer.md R101). -/
def readIntoMdr (s : State) : PhaseEnd :=
  match memRead s s.mar with
  | some v => .goesOn { s with mdr := v }
  | none => .raised (raise .outOfBounds s)

/-- Fetch (40_sequencer.md R102, R103): `MAR <- PC; PC <- PC + 1; MDR <- memory[MAR]; CIR <- MDR`. -/
def fetch (s : State) : PhaseEnd :=
  match readIntoMdr { s with mar := s.pc, pc := s.pc + 1 } with
  | .goesOn s1 => .goesOn { s1 with cir := s1.mdr }
  | .raised s1 => .raised s1

/-- Decode (40_sequencer.md R104, R105): OP is written on every cycle, from CIR alone. -/
def latchOp (s : State) : State := { s with op := decodeOp s.cir }

/-- `InputTake()`'s value for an item: 0 for a malformed one (10_state.md R34, 60_exceptions.md R173). -/
def InputItem.value : InputItem → Int
  | .int v => v
  | .malformed => 0

/-- The instruction is INP and `IN` is empty, so it cannot complete (44_system_io.md R153). -/
def holds (i : Instr) (s : State) : Bool := decide (i = .inp ∧ s.input = [])

end Sys2Proof.Machine
end

