-- ==== Sys2Proof/Machine/Operands.lean ====
section
/-! DEFINITION. The one operand form, direct, and the machine's arithmetic (40_sequencer.md R106, R107;
42_load_store.md R132; 00_scope.md R9; 41_arithmetic.md R122). -/

namespace Sys2Proof.Machine

/-- Operand resolution (40_sequencer.md R106): MAR takes the operand field and MDR the content of that cell. -/
def resolve (t : Nat) (s : State) : PhaseEnd := readIntoMdr { s with mar := (t : Int) }

/-- An operand-taking instruction: resolve, then execute unless resolution raised (60_exceptions.md R175 (4)). -/
def withOperand (t : Nat) (s : State) (execute : State → Out) : Out :=
  match resolve t s with
  | .goesOn s1 => execute s1
  | .raised s1 => .next s1

/-- `wrap_W(x)`: the integer in `MIN .. MAX` congruent to `x` modulo `2^W` (00_scope.md R9). -/
def wrap (c : Config) (x : Int) : Int := Int.bmod x (2 ^ c.width)

end Sys2Proof.Machine
end

