-- ==== Sys2Proof/Machine/Flags.lean ====
section
/-! DEFINITION. The machine has no flags (10_state.md R31). What other machines keep in flags is computed here: the branch
conditions, from ACC as it is now (43_branch.md R141 to R143), and overflow, from the exact result (41_arithmetic.md R122). -/

namespace Sys2Proof.Machine

/-- The condition of BRZ: ACC is exactly 0. -/
abbrev accIsZero (s : State) : Prop := s.acc = 0

/-- The condition of BRP: ACC is 0 or positive, as a signed value. -/
abbrev accIsNotNegative (s : State) : Prop := 0 ≤ s.acc

/-- An exact sum or difference written to ACC under the overflow policy (41_arithmetic.md R122, D2). Under `fault` a result
no word holds is a fatal condition: it is raised and ACC is not written (log 10). -/
def accumulate (exact : Int) (s : State) : Out :=
  match s.cfg.overflow with
  | .wrap => .next { s with acc := wrap s.cfg exact }
  | .fault => if s.cfg.InRange exact then .next { s with acc := exact } else .next (raise .overflow s)

/-- `PC <- MAR`, the write of a taken branch (43_branch.md R144). -/
def jumpToMar (s : State) : State := { s with pc := s.mar }

end Sys2Proof.Machine
end

