-- ==== Sys2Proof/Machine/Arithmetic.lean ====
section
/-! DEFINITION. ADD and SUB (41_arithmetic.md). -/

namespace Sys2Proof.Machine

/-- Execute phase of ADD: `ACC <- wrap_W(ACC + MDR)` (41_arithmetic.md R120). -/
def executeAdd (s : State) : Out := accumulate (s.acc + s.mdr) s

/-- Execute phase of SUB: `ACC <- wrap_W(ACC - MDR)` (41_arithmetic.md R121). -/
def executeSub (s : State) : Out := accumulate (s.acc - s.mdr) s

/-- ADD t (41_arithmetic.md R120), after fetch and decode. -/
def execAdd (t : Nat) (s : State) : Out := withOperand t s executeAdd

/-- SUB t (41_arithmetic.md R121), after fetch and decode. -/
def execSub (t : Nat) (s : State) : Out := withOperand t s executeSub

end Sys2Proof.Machine
end

