-- ==== Sys2Proof/Machine/Branch.lean ====
section
/-! DEFINITION. BRA, BRZ and BRP (43_branch.md). -/

namespace Sys2Proof.Machine

/-- Execute phase of BRA: `PC <- MAR` (43_branch.md R140). -/
def executeBra (s : State) : Out := .next (jumpToMar s)

/-- Execute phase of BRZ: `if ACC = 0: PC <- MAR` (43_branch.md R141). -/
def executeBrz (s : State) : Out := if accIsZero s then .next (jumpToMar s) else .next s

/-- Execute phase of BRP: `if ACC >= 0: PC <- MAR` (43_branch.md R142). -/
def executeBrp (s : State) : Out := if accIsNotNegative s then .next (jumpToMar s) else .next s

/-- BRA t (43_branch.md R140), after fetch and decode. -/
def execBra (t : Nat) (s : State) : Out := withOperand t s executeBra

/-- BRZ t (43_branch.md R141), after fetch and decode. -/
def execBrz (t : Nat) (s : State) : Out := withOperand t s executeBrz

/-- BRP t (43_branch.md R142), after fetch and decode. -/
def execBrp (t : Nat) (s : State) : Out := withOperand t s executeBrp

end Sys2Proof.Machine
end

