-- ==== Sys2Proof/Machine/LoadStore.lean ====
section
/-! DEFINITION. LDA and STA (42_load_store.md). -/

namespace Sys2Proof.Machine

/-- Execute phase of LDA: `ACC <- MDR` (42_load_store.md R130). -/
def executeLda (s : State) : Out := .next { s with acc := s.mdr }

/-- What MDR holds after the store of STA (42_load_store.md R131, the switch MDR_AFTER_STA; log 20). -/
def mdrAfterStore (s : State) : Int :=
  match s.cfg.mdrAfterSta with
  | .old => s.mdr
  | .acc => s.acc

/-- Execute phase of STA: `MemWrite(MAR, 1, ACC)` (42_load_store.md R131). -/
def executeSta (s : State) : Out :=
  match memWrite s s.mar s.acc with
  | some s1 => .next { s1 with mdr := mdrAfterStore s }
  | none => .next (raise .outOfBounds s)

/-- LDA t (42_load_store.md R130), after fetch and decode. -/
def execLda (t : Nat) (s : State) : Out := withOperand t s executeLda

/-- STA t (42_load_store.md R131), after fetch and decode. -/
def execSta (t : Nat) (s : State) : Out := withOperand t s executeSta

end Sys2Proof.Machine
end

