-- ==== Sys2Proof/Machine/SystemIo.lean ====
section
/-! DEFINITION. HLT, INP and OUT, and the execute phase of an unrecognised word (44_system_io.md). None of them resolves an
operand (40_sequencer.md R107). -/

namespace Sys2Proof.Machine

/-- Execute phase of HLT: `RUN <- HALTED` (44_system_io.md R150). -/
def executeHlt (s : State) : Out := .next { s with run := .halted }

/-- Execute phase of INP: `ACC <- InputTake()` (44_system_io.md R152). With `IN` empty the machine holds in this phase:
RUN stays RUNNING and nothing changes (R153; log 7). -/
def executeInp (s : State) : Out :=
  match s.input with
  | [] => .next s
  | item :: rest => .next { s with acc := item.value, input := rest }

/-- Execute phase of OUT: `OutputPut(ACC)` (44_system_io.md R154, 10_state.md R36; log 8). -/
def executeOut (s : State) : Out := .next { s with output := s.output ++ [s.acc] }

/-- Execute phase of an unrecognised word: `raise UnknownOpcode(CIR)` (44_system_io.md R156). -/
def executeUnknown (s : State) : Out := .next (raise .unknownOpcode s)

/-- HLT (44_system_io.md R150), after fetch and decode; the operand digits are ignored. -/
def execHlt (_field : Int) (s : State) : Out := executeHlt s

/-- INP (44_system_io.md R152, R153), after fetch and decode. -/
def execInp (s : State) : Out := executeInp s

/-- OUT (44_system_io.md R154), after fetch and decode. -/
def execOut (s : State) : Out := executeOut s

end Sys2Proof.Machine
end

