-- ==== Sys2Proof/Machine/Dispatch.lean ====
section
/-! DEFINITION. The dispatch of an instruction to its meaning (40_sequencer.md R108: exhaustive, no default). -/

namespace Sys2Proof.Machine

-- The instruction has been fetched and decoded: PC is advanced, MAR, MDR, CIR and OP are as fetch and decode left them.
def exec (i : Instr) (s : State) : Host.Outcome State Fault Refusal :=
  match i with
  | .hlt field => Sys2Proof.Machine.execHlt field s
  | .add t => Sys2Proof.Machine.execAdd t s
  | .sub t => Sys2Proof.Machine.execSub t s
  | .sta t => Sys2Proof.Machine.execSta t s
  | .lda t => Sys2Proof.Machine.execLda t s
  | .bra t => Sys2Proof.Machine.execBra t s
  | .brz t => Sys2Proof.Machine.execBrz t s
  | .brp t => Sys2Proof.Machine.execBrp t s
  | .inp => Sys2Proof.Machine.execInp s
  | .out => Sys2Proof.Machine.execOut s

end Sys2Proof.Machine
end

