-- ==== Sys2Proof/Machine/Loading.lean ====
section
/-! DEFINITION. Placing one word so that the very next step runs it: what the host's poke and start, and the input provider,
do together (70_reset_and_hazards.md R205, R206, R209; log 17). -/

namespace Sys2Proof.Machine

/-- Where the next fetch reads: PC, or 0 where PC is no cell (a machine that ran off the end of memory). -/
def fetchAddress (s : State) : Int := if inBounds s.cfg s.pc then s.pc else 0

/-- The input channel an instruction needs to complete: one item, if the word is INP and none has been supplied. -/
def inputReady (w : Int) (items : List InputItem) : List InputItem :=
  if decodeOp w = .inp ∧ items = [] then [.int 0] else items

/-- The word in the cell that is fetched next, RUN set, an item for INP to take. -/
def loadFetchWord (w : Int) (s : State) : State :=
  { s with pc := fetchAddress s, mem := s.mem.write (fetchAddress s).toNat w, run := .running, input := inputReady w s.input }

end Sys2Proof.Machine
end

