-- ==== Sys2Proof/Machine/Step.lean ====
section
/-! DEFINITION. The step: one whole instruction cycle (40_sequencer.md R100, R101, R109). -/

namespace Sys2Proof.Machine

/-- One instruction cycle. A halted machine has no cycle and changes nothing (R100). A cycle that reaches an INP with `IN`
empty is not performed: the state stays as it was before the fetch, RUN still RUNNING, until an item arrives
(44_system_io.md R153; log 7). -/
def step (s : State) : Host.Outcome State Fault Refusal :=
  match s.run with
  | .halted => .next s
  | .running =>
    match fetch s with
    | .raised s1 => .next s1
    | .goesOn s1 =>
      match decode s1.cir with
      | .reserved _ => executeUnknown (latchOp s1)
      | .instr i => if holds i s1 then .next s else exec i (latchOp s1)

/-- The state with an instruction word placed where the next step fetches, and made ready to run it (log 17). -/
def State.withFetchWord (s : State) (_nbits w : Nat) : State := loadFetchWord (wordOfBits s.cfg.width w) s

end Sys2Proof.Machine
end

