-- ==== Sys2Proof/Machine/Text.lean ====
section
/-! DEFINITION. Text: tokens, mnemonics, base-10 integers, the reading of an input line, and the disassembly notation
(30_encoding.md R74, R83, R85, R92; 44_system_io.md R158). -/

namespace Sys2Proof.Machine

/-- A line of text, character by character. -/
abbrev Text := List Char

/-- The two separators, space and tab (30_encoding.md R85). -/
def isBlank (c : Char) : Bool := c == ' ' || c == '\t'

/-- The maximal runs of non-blank characters, `current` being the run in progress, reversed. -/
def tokensFrom : Text → Text → List Text
  | [], current => if current = [] then [] else [current.reverse]
  | c :: rest, current =>
    if isBlank c then
      if current = [] then tokensFrom rest [] else current.reverse :: tokensFrom rest []
    else tokensFrom rest (c :: current)

/-- The tokens of a line (30_encoding.md R85). -/
def tokens (line : Text) : List Text := tokensFrom line []

/-- The ten mnemonics, upper case (30_encoding.md R74, R85). -/
def mnemonicTable : List (Text × Op) :=
  [(['H', 'L', 'T'], .hlt), (['A', 'D', 'D'], .add), (['S', 'U', 'B'], .sub), (['S', 'T', 'A'], .sta),
   (['L', 'D', 'A'], .lda), (['B', 'R', 'A'], .bra), (['B', 'R', 'Z'], .brz), (['B', 'R', 'P'], .brp),
   (['I', 'N', 'P'], .inp), (['O', 'U', 'T'], .out)]

/-- The operation a mnemonic names, matched exactly. -/
def opOfMnemonic (token : Text) : Option Op := (mnemonicTable.find? (fun row => row.1 == token)).map (·.2)

/-- The mnemonic of an operation; UNKNOWN has none. -/
def mnemonicOf (op : Op) : Option Text := (mnemonicTable.find? (fun row => row.2 == op)).map (·.1)

/-- The value of a decimal digit. -/
def digitValue (c : Char) : Option Nat := if 48 ≤ c.toNat ∧ c.toNat ≤ 57 then some (c.toNat - 48) else none

/-- Digits after a prefix of value `n`. -/
def parseDigits : Text → Nat → Option Nat
  | [], n => some n
  | c :: rest, n =>
    match digitValue c with
    | some d => parseDigits rest (10 * n + d)
    | none => none

/-- One or more digits. -/
def parseNatural (t : Text) : Option Nat := if t = [] then none else parseDigits t 0

/-- An optional sign and one or more digits (44_system_io.md R158; log 14 for the assembler's literals). -/
def parseInteger : Text → Option Int
  | [] => none
  | c :: rest =>
    if c = '-' then (parseNatural rest).map (fun n => -(n : Int))
    else if c = '+' then (parseNatural rest).map (fun n => (n : Int))
    else (parseNatural (c :: rest)).map (fun n => (n : Int))

/-- A line without its leading and trailing blanks. -/
def trim (line : Text) : Text := ((line.dropWhile isBlank).reverse.dropWhile isBlank).reverse

/-- An item as the channel holds it: a number outside `MIN .. MAX` is `Malformed` (10_state.md R34, D12). -/
def InputItem.fitted (c : Config) : InputItem → InputItem
  | .int v => if c.InRange v then .int v else .malformed
  | .malformed => .malformed

/-- The item one textual line supplies (44_system_io.md R158). -/
def readInputLine (c : Config) (line : Text) : InputItem :=
  match parseInteger (trim line) with
  | some v => InputItem.fitted c (.int v)
  | none => .malformed

/-- A decimal number. -/
def decimal (n : Nat) : Text := Nat.toDigits 10 n

/-- A word written as an instruction (30_encoding.md R83); a reserved word has no such form (log 21). -/
def disassemble (w : Int) : Option Text :=
  match mnemonicOf (decodeOp w) with
  | some name =>
    if (decodeOp w).takesOperand then some (name ++ ' ' :: decimal (operandField w)) else some name
  | none => none

end Sys2Proof.Machine
end

