-- ==== Sys2Proof/Machine/Assembler.lean ====
section
/-! DEFINITION. The assembler (30_encoding.md R84 to R97): one word for each source line, or a named error. -/

namespace Sys2Proof.Machine

/-- The errors of an assembly (30_encoding.md R94, R95). -/
inductive AsmError where
  | unrecognizedMnemonic
  | undefinedLabel
  | malformedOperand
  /-- more lines than cells -/
  | outOfBounds
deriving DecidableEq, Repr

/-- What assembling one line, or a program, gives. -/
inductive AsmResult (α : Type) where
  | ok (a : α)
  | error (e : AsmError)
deriving DecidableEq, Repr

/-- Pass 1 (30_encoding.md R87): the first token, of the first line whose first token is no mnemonic. A blank line has no
first token and defines no label (log 14). -/
def findLabel : List Text → Option Text
  | [] => none
  | line :: rest =>
    match tokens line with
    | [] => findLabel rest
    | first :: _ => if (opOfMnemonic first).isSome then findLabel rest else some first

/-- A mnemonic and the tokens after it. -/
def mnemonicAndRest : List Text → AsmResult (Op × List Text)
  | [] => .error .unrecognizedMnemonic
  | first :: rest =>
    match opOfMnemonic first with
    | some op => .ok (op, rest)
    | none => .error .unrecognizedMnemonic

/-- Pass 2, step 1 (30_encoding.md R86, R88): the mnemonic of a line, after its label if it has the one label. -/
def splitLine (label : Option Text) : List Text → AsmResult (Op × List Text)
  | [] => .error .unrecognizedMnemonic
  | first :: rest =>
    if label = some first then mnemonicAndRest rest else mnemonicAndRest (first :: rest)

/-- The 0-based index of the first line whose first token is the target (30_encoding.md R91; log 12). -/
def lineIndex (target : Text) : List Text → Nat → Option Nat
  | [], _ => none
  | line :: rest, k => if (tokens line).head? = some target then some k else lineIndex target rest (k + 1)

/-- The index a branch target resolves to: a mnemonic is never a label (30_encoding.md R91). -/
def resolveLabel (program : List Text) (target : Text) : Option Nat :=
  if (opOfMnemonic target).isSome then none else lineIndex target program 0

/-- The branch family: mnemonics beginning with B (30_encoding.md R91). -/
def isBranchOp (op : Op) : Bool := (mnemonicOf op).getD [] |>.head? |> (· == some 'B')

/-- Pass 2, step 3 (30_encoding.md R90 to R92): the operand, from the second token if there is one (log 11). -/
def operandOf (program : List Text) (op : Op) : List Text → AsmResult Int
  | [] => .ok 0
  | token :: _ =>
    if isBranchOp op then
      match resolveLabel program token with
      | some k => .ok (k : Int)
      | none => .error .undefinedLabel
    else
      match parseInteger token with
      | some v => .ok v
      | none => .error .malformedOperand

/-- Pass 2, step 4 (30_encoding.md R92, R93): the word; an operand the field cannot hold is malformed (log 13). -/
def wordOf (op : Op) (a : Int) : AsmResult Int :=
  match encodeOp op a with
  | some w => .ok w
  | none => .error .malformedOperand

/-- Pass 2 on one line. -/
def assembleLine (program : List Text) (line : Text) : AsmResult Int :=
  match splitLine (findLabel program) (tokens line) with
  | .error e => .error e
  | .ok (op, rest) =>
    match operandOf program op rest with
    | .error e => .error e
    | .ok a => wordOf op a

/-- Pass 2 on the lines in order; the first line that fails decides the error (log 14). -/
def assembleLines (program : List Text) : List Text → AsmResult (List Int)
  | [] => .ok []
  | line :: rest =>
    match assembleLine program line with
    | .error e => .error e
    | .ok w =>
      match assembleLines program rest with
      | .error e => .error e
      | .ok words => .ok (w :: words)

/-- The assembler's contract (30_encoding.md R84): the words to be written from address 0, all or none (R94, R95). -/
def assemble (c : Config) (program : List Text) : AsmResult (List Int) :=
  match assembleLines program program with
  | .error e => .error e
  | .ok words => if words.length ≤ c.cells then .ok words else .error .outOfBounds

end Sys2Proof.Machine
end

