-- ==== Sys2Proof/Machine/HostOps.lean ====
section
/-! DEFINITION. The host's five operations and the input provider's one (70_reset_and_hazards.md R200 to R209). -/

namespace Sys2Proof.Machine

/-- Why a host operation is refused. A refused operation changes nothing and is no fault of the core. -/
inductive HostRefusal where
  /-- the machine is running (70_reset_and_hazards.md R203) -/
  | notHalted
  /-- start while FAULT is set (70_reset_and_hazards.md R205) -/
  | faultLatched
  /-- poke outside memory (70_reset_and_hazards.md R206) -/
  | addressOutOfBounds
  /-- poke of a value no cell can hold (70_reset_and_hazards.md R206) -/
  | valueOutOfRange
  /-- the assembly failed (30_encoding.md R95) -/
  | assembly (e : AsmError)
deriving DecidableEq, Repr

/-- What the host gets back. -/
inductive HostReply (α : Type) where
  | done (a : α)
  | refused (r : HostRefusal)
deriving DecidableEq, Repr

/-- Only reset is available while the machine runs (70_reset_and_hazards.md R203). -/
def whileHalted {α : Type} (s : State) (reply : HostReply α) : HostReply α :=
  match s.run with
  | .halted => reply
  | .running => .refused .notHalted

/-- Reset (70_reset_and_hazards.md R200): every field but the input channel and the parameters. -/
def hostReset (s : State) : State := State.initial s.cfg s.input

/-- Start (70_reset_and_hazards.md R205). -/
def hostStart (s : State) : HostReply State :=
  whileHalted s (if s.fault = .none then .done { s with run := .running } else .refused .faultLatched)

/-- Poke, `SetMemory(address, value)` (70_reset_and_hazards.md R206). -/
def hostPoke (address value : Int) (s : State) : HostReply State :=
  whileHalted s
    (match memWrite s address value with
     | some s1 => if s.cfg.InRange value then .done s1 else .refused .valueOutOfRange
     | none => .refused .addressOutOfBounds)

/-- Words written to consecutive cells (30_encoding.md R94). -/
def Memory.writeFrom : Memory → Nat → List Int → Memory
  | m, _, [] => m
  | m, a, w :: words => Memory.writeFrom (m.write a w) (a + 1) words

/-- Assemble (70_reset_and_hazards.md R204): cells 0 to L-1 on success, nothing on failure. -/
def hostAssemble (program : List Text) (s : State) : HostReply State :=
  whileHalted s
    (match assemble s.cfg program with
     | .ok words => .done { s with mem := s.mem.writeFrom 0 words }
     | .error e => .refused (.assembly e))

/-- What inspect shows (70_reset_and_hazards.md R208, 10_state.md R40). -/
structure Snapshot where
  mem : List Int
  pc : Int
  mar : Int
  mdr : Int
  cir : Int
  acc : Int
  run : Run
  fault : FaultLatch
deriving DecidableEq, Repr

/-- The cells 0 to N-1 in order. -/
def cellList (s : State) : List Int := (List.range s.cfg.cells).map s.mem.read

/-- Inspect (70_reset_and_hazards.md R208): a reading, with no effect on the machine. -/
def hostInspect (s : State) : HostReply Snapshot :=
  whileHalted s
    (.done { mem := cellList s, pc := s.pc, mar := s.mar, mdr := s.mdr, cir := s.cir, acc := s.acc, run := s.run,
             fault := s.fault })

/-- The `info` of the fatal condition that stopped the machine: the bad address, in MAR, or the offending word, in CIR
(60_exceptions.md R175). The spec names none for an overflow (log 10). -/
def faultInfo (s : State) : Option Int :=
  match s.fault with
  | .none => none
  | .outOfBounds => some s.mar
  | .unknownOpcode => some s.cir
  | .overflow => none

/-- The input provider appends an item, at any time (70_reset_and_hazards.md R209). -/
def supplyInput (item : InputItem) (s : State) : State :=
  { s with input := s.input ++ [item.fitted s.cfg] }

/-- The input provider appends the item of a textual line (44_system_io.md R158). -/
def supplyLine (line : Text) (s : State) : State := { s with input := s.input ++ [readInputLine s.cfg line] }

end Sys2Proof.Machine
end

