-- ==== Sys2Proof/Machine/System.lean ====
section
/-! DEFINITION. The machine with its surroundings: everything that can change its state, one event at a time
(00_scope.md R13; 40_sequencer.md R112; 70_reset_and_hazards.md R209). -/

namespace Sys2Proof.Machine

/-- The core's cycle, the host's operations and the arrival of input. -/
inductive Event where
  | cycle
  | reset
  | assemble (program : List Text)
  | poke (address value : Int)
  | start
  | inspect
  | input (item : InputItem)
  | inputLine (line : Text)
deriving DecidableEq, Repr

/-- The state after a host operation: unchanged when refused. -/
def HostReply.orElse (s : State) : HostReply State → State
  | .done s1 => s1
  | .refused _ => s

/-- The state after an event. `Fault` is empty and no arm of `exec` refuses, so a cycle always answers a next state. -/
def State.after (e : Event) (s : State) : State :=
  match e with
  | .cycle =>
    match step s with
    | .next s1 => s1
    | .fault _ => s
    | .refused _ => s
  | .reset => hostReset s
  | .assemble program => (hostAssemble program s).orElse s
  | .poke address value => (hostPoke address value s).orElse s
  | .start => (hostStart s).orElse s
  | .inspect => s
  | .input item => supplyInput item s
  | .inputLine line => supplyLine line s

/-- The state after some events, the first of the list first. -/
def State.afterAll : List Event → State → State
  | [], s => s
  | e :: rest, s => State.afterAll rest (State.after e s)

/-- Bringing up a program, in the order of 70_reset_and_hazards.md R210: reset, assemble, poke the data, supply the input,
start. -/
def bringUp (program : List Text) (data : List (Int × Int)) (items : List InputItem) : List Event :=
  [.reset, .assemble program] ++ data.map (fun d => .poke d.1 d.2) ++ items.map .input ++ [.start]

end Sys2Proof.Machine
end

