-- ==== Sys2Proof/Machine/InputChannel.lean ====
section
/-! DEFINITION. The machine fed from a given input sequence, finite or infinite. The content of `IN` is an argument of the run,
and the machine holds only how many of its items it has taken, so that its state stays plain data (10_state.md R34: "a model
takes it as an argument and a claim about a program quantifies over it"; log 6). -/

namespace Sys2Proof.Machine

/-- The items the provider supplies, in order (10_state.md R34: "a finite or infinite sequence"). It is no state. -/
inductive InputSequence where
  | finite (items : List InputItem)
  | infinite (item : Nat → InputItem)

/-- The item number `n` of a sequence, counting from 0, if it has so many. -/
def InputSequence.item? : InputSequence → Nat → Option InputItem
  | .finite items, n => items[n]?
  | .infinite item, n => some (item n)

/-- The next `k` items from number `start` on, fewer where the sequence ends, as the channel admits them. -/
def InputSequence.window (source : InputSequence) (c : Config) (start : Nat) : Nat → List InputItem
  | 0 => []
  | k + 1 =>
    match source.item? start with
    | some item => InputItem.fitted c item :: source.window c (start + 1) k
    | none => []

/-- A core fed from a sequence, and how many of its items it has taken. The core's own list of items is not used. -/
structure Fed where
  core : State
  taken : Nat
deriving DecidableEq, Repr

/-- A machine right after reset, nothing taken. -/
def Fed.initial (c : Config) : Fed := ⟨State.initial c [], 0⟩

/-- The core with the next `k` items of the sequence in its channel. -/
def Fed.seeing (source : InputSequence) (k : Nat) (m : Fed) : State :=
  { m.core with input := source.window m.core.cfg m.taken k }

/-- One instruction cycle: `step` on the core that sees one item, all that one cycle can take (10_state.md R35). With the
sequence exhausted an INP waits; with an infinite one it never does. -/
def Fed.step (source : InputSequence) (m : Fed) : Host.Outcome Fed Fault Refusal :=
  match Sys2Proof.Machine.step (m.seeing source 1) with
  | .next s => .next ⟨{ s with input := [] }, m.taken + ((m.seeing source 1).input.length - s.input.length)⟩
  | .fault f => .fault f
  | .refused r => .refused r

/-- Some cycles. -/
def Fed.run (source : InputSequence) : Nat → Fed → Host.Outcome Fed Fault Refusal
  | 0, m => .next m
  | k + 1, m =>
    match m.step source with
    | .next m1 => Fed.run source k m1
    | .fault f => .fault f
    | .refused r => .refused r

/-- The fed machine after an event. Reset does not give items back (R200: `IN` is not written by reset). The sequence already
is all the provider ever supplies, so the arrival of an item is no event of this machine. -/
def Fed.after (source : InputSequence) (e : Event) (m : Fed) : Fed :=
  match e with
  | .cycle =>
    match m.step source with
    | .next m1 => m1
    | .fault _ => m
    | .refused _ => m
  | .reset => { m with core := hostReset m.core }
  | .assemble program => { m with core := State.after (.assemble program) m.core }
  | .poke address value => { m with core := State.after (.poke address value) m.core }
  | .start => { m with core := State.after .start m.core }
  | .inspect => m
  | .input _ => m
  | .inputLine _ => m

end Sys2Proof.Machine
end

