-- ==== Sys2Proof/Machine/Sequencer.lean ====
section
/-! DEFINITION. The sequencer that spends one state on each phase (40_sequencer.md R111). It refines `step` and shows the
waiting INP as 44_system_io.md R153 describes it (log 15). -/

namespace Sys2Proof.Machine

/-- The five states of the sequencer. -/
inductive Phase where
  | halted | fetch | decode | resolve | execute
deriving DecidableEq, Repr

/-- The core in some phase of its cycle. -/
structure Sequencer where
  phase : Phase
  core : State
deriving DecidableEq, Repr

/-- Dispatch on OP to one of the eleven execute arms (40_sequencer.md R108). -/
def executeOp (op : Op) (s : State) : Out :=
  match op with
  | .hlt => executeHlt s
  | .add => executeAdd s
  | .sub => executeSub s
  | .sta => executeSta s
  | .lda => executeLda s
  | .bra => executeBra s
  | .brz => executeBrz s
  | .brp => executeBrp s
  | .inp => executeInp s
  | .out => executeOut s
  | .unknown => executeUnknown s

/-- The phase after execute: `HALTED` when the instruction stopped the machine, `EXECUTE` while INP waits, `FETCH`
otherwise (40_sequencer.md R109, R111). -/
def phaseAfterExecute (before after : State) : Phase :=
  match after.run with
  | .halted => .halted
  | .running => if before.op = .inp ∧ before.input = [] then .execute else .fetch

/-- One phase (40_sequencer.md R111). -/
def tick (q : Sequencer) : Host.Outcome Sequencer Fault Refusal :=
  match q.phase with
  | .halted => .next q
  | .fetch =>
    match fetch q.core with
    | .goesOn s => .next ⟨.decode, s⟩
    | .raised s => .next ⟨.halted, s⟩
  | .decode => .next ⟨if (decodeOp q.core.cir).takesOperand then .resolve else .execute, latchOp q.core⟩
  | .resolve =>
    match resolve (operandField q.core.cir) q.core with
    | .goesOn s => .next ⟨.execute, s⟩
    | .raised s => .next ⟨.halted, s⟩
  | .execute =>
    match executeOp q.core.op q.core with
    | .next s => .next ⟨phaseAfterExecute q.core s, s⟩
    | .fault f => .fault f
    | .refused r => .refused r

/-- Several phases. -/
def ticks : Nat → Sequencer → Host.Outcome Sequencer Fault Refusal
  | 0, q => .next q
  | k + 1, q =>
    match tick q with
    | .next q' => ticks k q'
    | .fault f => .fault f
    | .refused r => .refused r

/-- The sequencer of a core between two instructions: at FETCH while running, else halted. -/
def Sequencer.between (s : State) : Sequencer :=
  ⟨match s.run with
   | .halted => .halted
   | .running => .fetch, s⟩

/-- The sequencer after an event: `HALTED -> FETCH` on start, `HALTED` after a reset in any phase (40_sequencer.md R111,
60_exceptions.md R181), one phase for a cycle. The other operations act on the core alone. -/
def Sequencer.after (e : Event) (q : Sequencer) : Sequencer :=
  match e with
  | .cycle =>
    match tick q with
    | .next q' => q'
    | .fault _ => q
    | .refused _ => q
  | .start =>
    match hostStart q.core with
    | .done s => ⟨.fetch, s⟩
    | .refused _ => q
  | .reset => ⟨.halted, hostReset q.core⟩
  | .assemble program => ⟨q.phase, State.after (.assemble program) q.core⟩
  | .poke address value => ⟨q.phase, State.after (.poke address value) q.core⟩
  | .inspect => q
  | .input item => ⟨q.phase, supplyInput item q.core⟩
  | .inputLine line => ⟨q.phase, supplyLine line q.core⟩

end Sys2Proof.Machine
end

