-- ==== Sys2Proof/Safety.lean ====
section
/-! DEFINITION. What claims are stated in: the well-formed states, and how a run stands (10_state.md R24 to R29;
44_system_io.md R151, R153). -/

namespace Sys2Proof.Machine

/-- Memory as the parameters allow it: canonical, every listed cell below `N`, every value a word. -/
abbrev Memory.Fits (c : Config) (m : Memory) : Prop :=
  Memory.wf m = true ∧ ∀ cell ∈ m, cell.1 < c.cells ∧ c.InRange cell.2

/-- An item the input channel may hold (10_state.md R34). -/
abbrev InputItem.Fits (c : Config) (item : InputItem) : Prop := item.fitted c = item

/-- PC lies in `0 .. N`, or at `N + 1` in a machine stopped by the fetch at `N` (10_state.md R24, 60_exceptions.md R176). -/
abbrev State.PcFits (s : State) : Prop :=
  (0 ≤ s.pc ∧ s.pc ≤ s.cfg.cells) ∨
  (s.pc = s.cfg.cells + 1 ∧ s.mar = s.cfg.cells ∧ s.fault = .outOfBounds ∧ s.run = .halted)

/-- The invariant of every reachable state: legal parameters, every register, cell, item and output value a word, PC in
its range, a running machine has no fault, and FAULT has one of the spec's three values unless the policy is `fault`
(10_state.md R20 to R36). -/
abbrev State.Wf (s : State) : Prop :=
  s.cfg.Legal ∧ Memory.Fits s.cfg s.mem ∧ s.PcFits ∧
  s.cfg.InRange s.pc ∧ s.cfg.InRange s.mar ∧ s.cfg.InRange s.mdr ∧ s.cfg.InRange s.cir ∧ s.cfg.InRange s.acc ∧
  (s.run = .running → s.fault = .none) ∧ (s.fault = .overflow → s.cfg.overflow = .fault) ∧
  (∀ item ∈ s.input, item.Fits s.cfg) ∧ (∀ v ∈ s.output, s.cfg.InRange v)

/-- The run has ended (44_system_io.md R151). -/
def State.ended (s : State) : Bool := decide (s.run = .halted)

/-- The run has ended successfully (44_system_io.md R151). -/
def State.endedWell (s : State) : Bool := decide (s.run = .halted ∧ s.fault = .none)

/-- The run has failed (44_system_io.md R151, 60_exceptions.md R175). -/
def State.failed (s : State) : Bool := decide (s.run = .halted ∧ s.fault ≠ .none)

/-- The machine is running and its next instruction has the word `w`, in a cell of memory. -/
abbrev State.AtWord (s : State) (w : Int) : Prop := s.run = .running ∧ memRead s s.pc = some w

/-- The machine waits: its next instruction is an INP and `IN` is empty (44_system_io.md R153). -/
abbrev State.Waits (s : State) : Prop := s.AtWord 901 ∧ s.input = []

/-- The state after the fetch and decode of the word `w` at PC (40_sequencer.md R102, R104). -/
def State.fetched (s : State) (w : Int) : State :=
  { s with mar := s.pc, pc := s.pc + 1, mdr := w, cir := w, op := decodeOp w }

/-- The state in which resolving the operand `t` raised `OutOfBounds`: MAR holds the bad address (60_exceptions.md R176). -/
def State.operandFault (s : State) (t : Nat) : State :=
  { s with mar := (t : Int), fault := .outOfBounds, run := .halted }

end Sys2Proof.Machine
end

