-- ==== Sys2Proof/Certificates/Slice0/Obligations.lean ====
section
/-! DEFINITION. The statements about the model, each a formula for the provers. Nothing is proved here. Where a clause rests
on a choice the spec marks as its own (a D<n> of 92_eei_decisions.md) or on a log entry of the model, the docstring says so. -/

open Sys2Proof Sys2Proof.Machine

-- ==== The arithmetic of the spec ====

/-- R10: `tdiv` is the quotient rounded toward zero, and `tmod` the remainder that goes with it: it has the sign of `a` or is
zero, and its magnitude is below the divisor. -/
def Obligations.TdivRoundsTowardZero : Prop :=
  ∀ a b : Int, 0 < b →
    (0 ≤ a → b * tdiv a b ≤ a ∧ a < b * (tdiv a b + 1)) ∧
    (a < 0 → a ≤ b * tdiv a b ∧ b * (tdiv a b - 1) < a) ∧
    tmod a b = a - b * tdiv a b ∧
    (0 ≤ a → 0 ≤ tmod a b) ∧ (a ≤ 0 → tmod a b ≤ 0) ∧ -b < tmod a b ∧ tmod a b < b

/-- R9, its sentence on `wrap_W`: the one word congruent to `x` modulo `2^W`. A word is its own wrap (R122). That results wrap
is the spec's own choice D2. -/
def Obligations.WrapIsTheOneCongruentWord : Prop :=
  ∀ (c : Config) (x y : Int), 1 ≤ c.width →
    ((c.InRange y ∧ ((2 ^ c.width : Nat) : Int) ∣ y - x) ↔ y = wrap c x) ∧ (c.InRange x → wrap c x = x)

-- ==== Encoding ====

/-- Words written out from the encoding tables of 30_encoding.md R74 and R76: what each decodes to. The tables give the operation HLT
no operand: that a HLT term carries the ignored digits of its word is the model's choice, and that -99 is a HLT is the spec's
derivation in R78, flagged in U6 (log 19). -/
def Obligations.WrittenWordsDecodeAsTheTableSays : Prop :=
  decode 0 = .instr (.hlt 0) ∧ decode 37 = .instr (.hlt 37) ∧ decode (-99) = .instr (.hlt (-99)) ∧
  decode 111 = .instr (.add 11) ∧ decode 211 = .instr (.sub 11) ∧ decode 312 = .instr (.sta 12) ∧
  decode 594 = .instr (.lda 94) ∧ decode 600 = .instr (.bra 0) ∧ decode 703 = .instr (.brz 3) ∧
  decode 899 = .instr (.brp 99) ∧ decode 901 = .instr .inp ∧ decode 902 = .instr .out ∧
  decode 450 = .reserved .opcodeFour ∧ decode 900 = .reserved .opcodeNine ∧ decode 1901 = .reserved .fourDigits ∧
  decode (-100) = .reserved .negative

/-- The decoder of R75, as the ranges of R76 (which the spec derives from R75 and R10): total, each operation chosen by exactly
these words. That the words -99 to -1 are HLT is the spec's derivation in R78, flagged in U6 (log 19). -/
def Obligations.EachOperationHasItsWords : Prop :=
  ∀ w : Int,
    (decodeOp w = .hlt ↔ -99 ≤ w ∧ w ≤ 99) ∧
    (decodeOp w = .add ↔ 100 ≤ w ∧ w ≤ 199) ∧
    (decodeOp w = .sub ↔ 200 ≤ w ∧ w ≤ 299) ∧
    (decodeOp w = .sta ↔ 300 ≤ w ∧ w ≤ 399) ∧
    (decodeOp w = .lda ↔ 500 ≤ w ∧ w ≤ 599) ∧
    (decodeOp w = .bra ↔ 600 ≤ w ∧ w ≤ 699) ∧
    (decodeOp w = .brz ↔ 700 ≤ w ∧ w ≤ 799) ∧
    (decodeOp w = .brp ↔ 800 ≤ w ∧ w ≤ 899) ∧
    (decodeOp w = .inp ↔ w = 901) ∧
    (decodeOp w = .out ↔ w = 902) ∧
    (decodeOp w = .unknown ↔ w ≤ -100 ∨ (400 ≤ w ∧ w ≤ 499) ∨ w = 900 ∨ 903 ≤ w)

/-- The reserved words of R77, each rejected under the name of its range. -/
def Obligations.ReservedWordsAreRejectedByName : Prop :=
  ∀ w : Int,
    (decode w = .reserved .opcodeFour ↔ 400 ≤ w ∧ w ≤ 499) ∧
    (decode w = .reserved .opcodeNine ↔ w = 900 ∨ (903 ≤ w ∧ w ≤ 999)) ∧
    (decode w = .reserved .fourDigits ↔ 1000 ≤ w) ∧
    (decode w = .reserved .negative ↔ w ≤ -100)

/-- R80: `encode(op, a)`, the three properties of a packed word, the two sentinels, and the converse, which fails only for a
HLT read from a negative word. -/
def Obligations.EncodedPairsSplitBack : Prop :=
  (packedOpcode .hlt = some 0 ∧ packedOpcode .add = some 1 ∧ packedOpcode .sub = some 2 ∧ packedOpcode .sta = some 3 ∧
    packedOpcode .lda = some 5 ∧ packedOpcode .bra = some 6 ∧ packedOpcode .brz = some 7 ∧ packedOpcode .brp = some 8) ∧
  (∀ (op : Op) (code a : Int), packedOpcode op = some code → 0 ≤ a → a ≤ 99 →
    encodeOp op a = some (code * 100 + a) ∧ tdiv (code * 100 + a) 100 = code ∧ tmod (code * 100 + a) 100 = a ∧
    decodeOp (code * 100 + a) = op) ∧
  (∀ a : Int, encodeOp .inp a = some 901 ∧ encodeOp .out a = some 902) ∧
  decodeOp 901 = .inp ∧ decodeOp 902 = .out ∧
  (∀ w : Int, decodeOp w ≠ .unknown → decodeOp w ≠ .hlt → encodeOp (decodeOp w) (tmod w 100) = some w) ∧
  (∀ w : Int, -99 ≤ w → w ≤ 99 →
    decodeOp w = .hlt ∧ (encodeOp .hlt (tmod w 100) = some w ↔ 0 ≤ w))

/-- Decoding the word of an instruction gives the instruction back, with its operand at every value the encoding admits. R80
gives `encode` for operands 0 to 99 and for the sentinels; that a HLT term also carries the digits -99 to -1, and encodes back to
that word, is the model's extension (log 19). -/
def Obligations.DecodeOfEncodeIsTheInstruction : Prop :=
  ∀ i : Instr, i.wellFormed = true → decode (encode i) = .instr i

/-- Every word has one meaning: the instruction it decodes to is well formed, has the decoder's operation and the word's
operand field, and encodes to that word. For the words -99 to -1 this is the model's choice (log 19): its HLT term carries the
negative digits, where the `encode` of R80 has no word for them (`EncodedPairsSplitBack`). -/
def Obligations.EncodeOfDecodeIsTheWord : Prop :=
  ∀ (w : Int) (i : Instr), decode w = .instr i →
    i.wellFormed = true ∧ encode i = w ∧ i.op = decodeOp w ∧ (∀ t, i.operand = some t → (t : Int) = tmod w 100)

-- ==== Memory, reset ====

/-- Two canonical memories that read the same everywhere are the same data. -/
def Obligations.CanonicalMemoriesWithEqualReadsAreEqual : Prop :=
  ∀ m m' : Memory, Memory.wf m = true → Memory.wf m' = true → (∀ a, Memory.read m a = Memory.read m' a) → m = m'

/-- Reset (R37, R200): every field, from any state. The register and memory values are the spec's own choice (D4, D5, D6, D18;
log 3, 4, 16); the input channel and the parameters are kept. `State.reset` is the reset of a machine with the default
parameters and no input (log 2, 6). -/
def Obligations.ResetSetsEveryFieldButInput : Prop :=
  (∀ s : State,
    (hostReset s).pc = 0 ∧ (hostReset s).run = .halted ∧ (hostReset s).fault = .none ∧ (hostReset s).op = .unknown ∧
    (hostReset s).output = [] ∧ (hostReset s).input = s.input ∧ (hostReset s).cfg = s.cfg ∧
    (∀ a, memRead (hostReset s) a = if 0 ≤ a ∧ a < s.cfg.cells then some 0 else none) ∧
    (s.cfg.resetRegs = .zero →
      (hostReset s).mar = 0 ∧ (hostReset s).mdr = 0 ∧ (hostReset s).cir = 0 ∧ (hostReset s).acc = 0) ∧
    (∀ mar mdr cir acc, s.cfg.resetRegs = .given mar mdr cir acc →
      (hostReset s).mar = mar ∧ (hostReset s).mdr = mdr ∧ (hostReset s).cir = cir ∧ (hostReset s).acc = acc)) ∧
  State.reset.cfg = { cells := 100, width := 32, overflow := .wrap, mdrAfterSta := .old, resetRegs := .zero } ∧
  hostReset State.reset = State.reset ∧ State.reset.input = []

-- ==== The cycle ====

/-- A step runs the decoded instruction (R100 to R102, R104): its meaning, applied to the state after fetch and decode. An INP
at an empty input channel is the one exception (`WaitingInpHoldsUntilAnItemArrives`). -/
def Obligations.StepRunsTheDecodedInstruction : Prop :=
  ∀ (s : State) (w : Int) (i : Instr), s.run = .running → memRead s s.pc = some w → decode w = .instr i →
    ¬ (i = .inp ∧ s.input = []) →
    step s = exec i { s with mar := s.pc, pc := s.pc + 1, mdr := w, cir := w, op := i.op }

/-- R156: an unrecognised word halts the machine with FAULT = UNKNOWN_OPCODE, its address in MAR, the word in MDR and CIR,
and resolves no operand. (That the registers stay as they stand is D7, that no operand is resolved is D10.) -/
def Obligations.UnrecognisedWordRaisesUnknownOpcode : Prop :=
  ∀ (s : State) (w : Int), s.AtWord w → (w ≤ -100 ∨ (400 ≤ w ∧ w ≤ 499) ∨ w = 900 ∨ 903 ≤ w) →
    step s = .next { s with pc := s.pc + 1, mar := s.pc, mdr := w, cir := w, op := .unknown,
                            fault := .unknownOpcode, run := .halted }

/-- R103 and the first row of R176: a fetch outside memory. MAR and PC have been written, nothing else (D7). -/
def Obligations.FetchOutsideMemoryRaisesOutOfBounds : Prop :=
  ∀ s : State, s.run = .running → (s.pc < 0 ∨ (s.cfg.cells : Int) ≤ s.pc) →
    step s = .next { s with pc := s.pc + 1, mar := s.pc, fault := .outOfBounds, run := .halted }

/-- R100: a machine with RUN = HALTED changes nothing (that the model answers the same state is log 7). -/
def Obligations.HaltedMachineChangesNothing : Prop :=
  ∀ s : State, s.run = .halted → step s = .next s

/-- R153: an INP at an empty input channel is held, RUN still RUNNING, and completes once an item arrives (D12, D30; the whole
instruction view of vector I3; log 7). -/
def Obligations.WaitingInpHoldsUntilAnItemArrives : Prop :=
  ∀ s : State, s.AtWord 901 → s.input = [] →
    step s = .next s ∧
    (∀ v : Int, s.cfg.InRange v →
      step (supplyInput (.int v) s) = .next { s with pc := s.pc + 1, mar := s.pc, mdr := 901, cir := 901, op := .inp, acc := v }) ∧
    step (supplyInput .malformed s) =
      .next { s with pc := s.pc + 1, mar := s.pc, mdr := 901, cir := 901, op := .inp, acc := 0 }

/-- R221: the cycle is total, so a step always answers a next state. (Over every state this takes in halted machines and waiting
INPs, which have no cycle in the spec and answer the same state in the model: log 7.) A cycle raises the overflow exactly on an
ADD or SUB whose exact result no word holds, under the policy `fault` (R122, D2, U7; that it is latched is log 10). -/
def Obligations.EveryCycleAnswers : Prop :=
  ∀ s : State, ∃ s', step s = .next s' ∧
    (s.fault ≠ .overflow → (s'.fault = .overflow ↔
      s.cfg.overflow = .fault ∧ ∃ t : Nat, t ≤ 99 ∧ t < s.cfg.cells ∧
        ((s.AtWord (100 + t) ∧ ¬ s.cfg.InRange (s.acc + s.mem.read t)) ∨
         (s.AtWord (200 + t) ∧ ¬ s.cfg.InRange (s.acc - s.mem.read t)))))

-- ==== The ten instructions, whole cycles ====

/-- R120: ADD, under the default overflow policy `wrap` (D2); with the operand outside memory it raises `OutOfBounds` in
operand resolution and ACC is unchanged (the stopped registers are D7). -/
def Obligations.AddCycle : Prop :=
  ∀ (s : State) (t : Nat), t ≤ 99 → s.AtWord (100 + t) → s.cfg.overflow = .wrap →
    (t < s.cfg.cells → step s = .next { s with
      pc := s.pc + 1, mar := t, mdr := s.mem.read t, cir := 100 + t, op := .add,
      acc := wrap s.cfg (s.acc + s.mem.read t) }) ∧
    (s.cfg.cells ≤ t → step s = .next { s with
      pc := s.pc + 1, mar := t, mdr := 100 + t, cir := 100 + t, op := .add, fault := .outOfBounds, run := .halted })

/-- R121: SUB, under the default overflow policy `wrap` (D2); out of bounds as ADD. -/
def Obligations.SubCycle : Prop :=
  ∀ (s : State) (t : Nat), t ≤ 99 → s.AtWord (200 + t) → s.cfg.overflow = .wrap →
    (t < s.cfg.cells → step s = .next { s with
      pc := s.pc + 1, mar := t, mdr := s.mem.read t, cir := 200 + t, op := .sub,
      acc := wrap s.cfg (s.acc - s.mem.read t) }) ∧
    (s.cfg.cells ≤ t → step s = .next { s with
      pc := s.pc + 1, mar := t, mdr := 200 + t, cir := 200 + t, op := .sub, fault := .outOfBounds, run := .halted })

/-- R130: LDA; with the operand outside memory it raises `OutOfBounds(t)`, ACC unchanged. That MAR of the machine so stopped holds
`t` is D7 (log 9); its other registers are in `OperandFaultStopsTheCycle`. -/
def Obligations.LdaCycle : Prop :=
  ∀ (s : State) (t : Nat), t ≤ 99 → s.AtWord (500 + t) →
    (t < s.cfg.cells → step s = .next { s with
      pc := s.pc + 1, mar := t, mdr := s.mem.read t, cir := 500 + t, op := .lda, acc := s.mem.read t }) ∧
    (s.cfg.cells ≤ t → ∃ s', step s = .next (raise .outOfBounds s') ∧ s'.mar = t ∧ s'.acc = s.acc)

/-- R131: STA. The one cell `t` takes ACC and every other cell reads as before; MDR keeps the old content of the cell, or
takes ACC where the switch MDR_AFTER_STA says so (D11). Out of bounds nothing is stored. -/
def Obligations.StaCycle : Prop :=
  ∀ (s : State) (t : Nat), t ≤ 99 → s.AtWord (300 + t) → Memory.wf s.mem = true →
    (t < s.cfg.cells → ∃ m : Memory,
      step s = .next { s with
        pc := s.pc + 1, mar := t, cir := 300 + t, op := .sta, mem := m,
        mdr := if s.cfg.mdrAfterSta = .old then s.mem.read t else s.acc } ∧
      Memory.wf m = true ∧ Memory.read m t = s.acc ∧ ∀ a, a ≠ t → Memory.read m a = Memory.read s.mem a) ∧
    (s.cfg.cells ≤ t → step s = .next { s with
      pc := s.pc + 1, mar := t, mdr := 300 + t, cir := 300 + t, op := .sta, fault := .outOfBounds, run := .halted })

/-- R140: BRA; with the target outside memory it raises `OutOfBounds(t)`, and PC keeps the address of the next instruction. That
MAR of the machine so stopped holds `t` is D7 (log 9). -/
def Obligations.BraCycle : Prop :=
  ∀ (s : State) (t : Nat), t ≤ 99 → s.AtWord (600 + t) →
    (t < s.cfg.cells → step s = .next { s with
      pc := t, mar := t, mdr := s.mem.read t, cir := 600 + t, op := .bra }) ∧
    (s.cfg.cells ≤ t → ∃ s', step s = .next (raise .outOfBounds s') ∧ s'.mar = t ∧ s'.acc = s.acc ∧ s'.pc = s.pc + 1)

/-- R141: BRZ is taken exactly when ACC = 0; the operand is resolved, and may be out of bounds, taken or not. What PC and MAR
of the machine so stopped hold is D7 with the table of R176 (log 9). -/
def Obligations.BrzCycle : Prop :=
  ∀ (s : State) (t : Nat), t ≤ 99 → s.AtWord (700 + t) →
    (t < s.cfg.cells → step s = .next { s with
      pc := if s.acc = 0 then (t : Int) else s.pc + 1, mar := t, mdr := s.mem.read t, cir := 700 + t, op := .brz }) ∧
    (s.cfg.cells ≤ t → ∃ s', step s = .next (raise .outOfBounds s') ∧ s'.mar = t ∧ s'.acc = s.acc ∧ s'.pc = s.pc + 1)

/-- R142: BRP is taken exactly when ACC >= 0; the operand is resolved, and may be out of bounds, taken or not. What PC and MAR
of the machine so stopped hold is D7 with the table of R176 (log 9). -/
def Obligations.BrpCycle : Prop :=
  ∀ (s : State) (t : Nat), t ≤ 99 → s.AtWord (800 + t) →
    (t < s.cfg.cells → step s = .next { s with
      pc := if 0 ≤ s.acc then (t : Int) else s.pc + 1, mar := t, mdr := s.mem.read t, cir := 800 + t, op := .brp }) ∧
    (s.cfg.cells ≤ t → ∃ s', step s = .next (raise .outOfBounds s') ∧ s'.mar = t ∧ s'.acc = s.acc ∧ s'.pc = s.pc + 1)

/-- R176, its second row: the state in which each of the seven operand-taking instructions stops when its operand lies
outside memory. That a fault is latched is D6, that the registers stay as they stand at the failing access is D7. -/
def Obligations.OperandFaultStopsTheCycle : Prop :=
  ∀ (s : State) (op : Op) (c : Int) (t : Nat), packedOpcode op = some c → op ≠ .hlt → t ≤ 99 → s.AtWord (c * 100 + t) →
    s.cfg.cells ≤ t →
    step s = .next { s with
      pc := s.pc + 1, mar := t, mdr := c * 100 + t, cir := c * 100 + t, op := op, fault := .outOfBounds, run := .halted }

/-- R105: decode assigns OP on every cycle, from the fetched word alone, an unrecognised one included. (A waiting INP has not
performed its cycle, log 7.) -/
def Obligations.OpIsNeverStale : Prop :=
  ∀ (s s' : State) (w : Int), s.AtWord w → ¬ s.Waits → step s = .next s' → s'.cir = w ∧ s'.op = decodeOp w

/-- R150: HLT, for every word from -99 to 99. Nothing but the fetch registers and RUN changes. That a negative word is a HLT is
the spec's derivation in R78, flagged in U6 (log 19). -/
def Obligations.HltCycle : Prop :=
  ∀ (s : State) (w : Int), -99 ≤ w → w ≤ 99 → s.AtWord w →
    step s = .next { s with pc := s.pc + 1, mar := s.pc, mdr := w, cir := w, op := .hlt, run := .halted }

/-- R152: INP takes one item from the front of the channel; a malformed one loads 0. -/
def Obligations.InpCycle : Prop :=
  ∀ (s : State) (rest : List InputItem), s.AtWord 901 →
    (∀ v : Int, s.input = .int v :: rest → step s = .next { s with
      pc := s.pc + 1, mar := s.pc, mdr := 901, cir := 901, op := .inp, acc := v, input := rest }) ∧
    (s.input = .malformed :: rest → step s = .next { s with
      pc := s.pc + 1, mar := s.pc, mdr := 901, cir := 901, op := .inp, acc := 0, input := rest })

/-- R154: OUT appends ACC to the output channel (the sink never makes it wait: D14, log 8). -/
def Obligations.OutCycle : Prop :=
  ∀ s : State, s.AtWord 902 →
    step s = .next { s with
      pc := s.pc + 1, mar := s.pc, mdr := 902, cir := 902, op := .out, output := s.output ++ [s.acc] }

-- ==== The ten meanings: where each completes, and what each leaves alone ====

/-- ADD and SUB complete on every operand in memory (policy `wrap`). -/
def Obligations.ExecArithmeticCompletes : Prop :=
  ∀ (s : State) (t : Nat), t < s.cfg.cells → s.cfg.overflow = .wrap →
    exec (.add t) s = .next { s with mar := t, mdr := s.mem.read t, acc := wrap s.cfg (s.acc + s.mem.read t) } ∧
    exec (.sub t) s = .next { s with mar := t, mdr := s.mem.read t, acc := wrap s.cfg (s.acc - s.mem.read t) }

/-- LDA and STA complete on every operand in memory. -/
def Obligations.ExecLoadStoreCompletes : Prop :=
  ∀ (s : State) (t : Nat), t < s.cfg.cells →
    exec (.lda t) s = .next { s with mar := t, mdr := s.mem.read t, acc := s.mem.read t } ∧
    exec (.sta t) s = .next { s with
      mar := t, mem := s.mem.write t s.acc, mdr := if s.cfg.mdrAfterSta = .old then s.mem.read t else s.acc }

/-- The branches complete on every target in memory (R143: taken by the sign of ACC, BRA always). -/
def Obligations.ExecBranchesComplete : Prop :=
  ∀ (s : State) (t : Nat), t < s.cfg.cells →
    exec (.bra t) s = .next { s with mar := t, mdr := s.mem.read t, pc := t } ∧
    exec (.brz t) s = .next { s with mar := t, mdr := s.mem.read t, pc := if s.acc = 0 then (t : Int) else s.pc } ∧
    exec (.brp t) s = .next { s with mar := t, mdr := s.mem.read t, pc := if 0 ≤ s.acc then (t : Int) else s.pc }

/-- HLT and OUT complete in every state, and INP whenever an item is there. That OUT never waits for its sink is the spec's own
choice D14 (log 8). -/
def Obligations.ExecSystemCompletes : Prop :=
  ∀ (s : State) (field : Int) (item : InputItem) (rest : List InputItem),
    exec (.hlt field) s = .next { s with run := .halted } ∧
    (s.input = item :: rest → exec .inp s = .next { s with acc := item.value, input := rest }) ∧
    exec .out s = .next { s with output := s.output ++ [s.acc] }

/-- R106, R172 (2), R176: an operand outside memory raises `OutOfBounds` whatever the operation, with the bad address in MAR
and no part of the execute phase done (D6, D7). -/
def Obligations.OperandOutsideMemoryRaisesOutOfBounds : Prop :=
  ∀ (i : Instr) (s : State) (t : Nat), i.operand = some t → s.cfg.cells ≤ t →
    exec i s = .next { s with mar := t, fault := .outOfBounds, run := .halted }

/-- OVERFLOW_POLICY = fault (R122, D2, U7): ADD and SUB write the exact result where a word holds it, and otherwise raise a fatal
condition, RUN = HALTED and FAULT set, with no part of the execute phase done (R175). The latch value is the model's (log 10). -/
def Obligations.OverflowPolicyFaultStopsOnlyOnOverflow : Prop :=
  ∀ (s : State) (t : Nat), t < s.cfg.cells → s.cfg.overflow = .fault →
    (s.cfg.InRange (s.acc + s.mem.read t) →
      exec (.add t) s = .next { s with mar := t, mdr := s.mem.read t, acc := s.acc + s.mem.read t }) ∧
    (¬ s.cfg.InRange (s.acc + s.mem.read t) →
      exec (.add t) s = .next { s with mar := t, mdr := s.mem.read t, fault := .overflow, run := .halted }) ∧
    (s.cfg.InRange (s.acc - s.mem.read t) →
      exec (.sub t) s = .next { s with mar := t, mdr := s.mem.read t, acc := s.acc - s.mem.read t }) ∧
    (¬ s.cfg.InRange (s.acc - s.mem.read t) →
      exec (.sub t) s = .next { s with mar := t, mdr := s.mem.read t, fault := .overflow, run := .halted })

/-- The access matrix of R39, as a frame: the registers, control state and channels each meaning leaves as they were; and a
meaning that raises a fatal condition has halted the machine and done no part of its execute phase (R175; D6, D7, log 10). -/
def Obligations.ExecWritesOnlyWhatTheMatrixNames : Prop :=
  ∀ (i : Instr) (s s' : State), exec i s = .next s' →
    s'.cir = s.cir ∧ s'.op = s.op ∧ s'.cfg = s.cfg ∧
    (i.op ≠ .add → i.op ≠ .sub → i.op ≠ .lda → i.op ≠ .inp → s'.acc = s.acc) ∧
    (i.op ≠ .bra → i.op ≠ .brz → i.op ≠ .brp → s'.pc = s.pc) ∧
    (i.operand = none → s'.mar = s.mar ∧ s'.mdr = s.mdr) ∧
    (i.op ≠ .inp → s'.input = s.input) ∧
    (i.op ≠ .out → s'.output = s.output) ∧
    (∀ t, i.operand = some t → s'.mar = (t : Int)) ∧
    ((∀ t, i.operand = some t → t < s.cfg.cells) → (s.cfg.overflow = .wrap ∨ (i.op ≠ .add ∧ i.op ≠ .sub)) →
      s'.fault = s.fault ∧ (i.op ≠ .hlt → s'.run = s.run)) ∧
    (s'.fault ≠ s.fault → s'.run = .halted ∧ s'.acc = s.acc ∧ s'.pc = s.pc ∧ s'.mem = s.mem ∧ s'.input = s.input ∧
      s'.output = s.output)

/-- The frame of memory: an instruction other than STA leaves every cell as it was. -/
def Obligations.OnlyStaWritesMemory : Prop :=
  ∀ (i : Instr) (s s' : State), i.op ≠ .sta → exec i s = .next s' → ∀ a, memRead s' a = memRead s a

/-- The frame of STA: the cell stored to is the operand `t`, which takes ACC; every other cell reads as before, and all of
them do when `t` is outside memory. ACC, PC, CIR, OP and the channels are unchanged. -/
def Obligations.StaWritesItsCellOnly : Prop :=
  ∀ (s s' : State) (t : Nat), Memory.wf s.mem = true → exec (.sta t) s = .next s' →
    (∀ a : Int, a ≠ t → memRead s' a = memRead s a) ∧
    memRead s' t = (if t < s.cfg.cells then some s.acc else none) ∧
    Memory.wf s'.mem = true ∧
    s'.acc = s.acc ∧ s'.pc = s.pc ∧ s'.cir = s.cir ∧ s'.op = s.op ∧ s'.input = s.input ∧ s'.output = s.output

-- ==== Rules of the whole machine ====

/-- R155: only INP takes from the input channel, one item, and only OUT adds to the output channel, the accumulator; and whatever
is not an INP is not influenced by what `IN` holds, whatever is not an OUT not by what `OUT` holds. -/
def Obligations.OnlyInpAndOutTouchTheOutside : Prop :=
  ∀ s s' : State, step s = .next s' →
    (s'.input ≠ s.input → s.AtWord 901 ∧ ∃ item, s.input = item :: s'.input ∧ s'.acc = item.value) ∧
    (s'.output ≠ s.output → s.AtWord 902 ∧ s'.output = s.output ++ [s.acc]) ∧
    (¬ s.AtWord 901 → ∀ items, step { s with input := items } = .next { s' with input := items }) ∧
    (¬ s.AtWord 902 → ∀ outs, step { s with output := outs } = .next { s' with output := outs })

/-- R28 with 90_conflicts.md C7: a running machine is halted by HLT, leaving FAULT as it was, or by a fatal condition, which
sets FAULT: by the word for `UnknownOpcode`, by an address outside memory in MAR for `OutOfBounds`; under the policy `fault` also by
an overflow, ACC unchanged (U7, log 10). -/
def Obligations.OnlyHltOrAFatalConditionHalts : Prop :=
  ∀ s s' : State, s.run = .running → step s = .next s' → s'.run = .halted →
    (∃ w, s.AtWord w ∧ -99 ≤ w ∧ w ≤ 99 ∧ s'.fault = s.fault) ∨
    (∃ w, s.AtWord w ∧ decodeOp w = .unknown ∧ s'.fault = .unknownOpcode ∧ s'.cir = w) ∨
    (s'.fault = .outOfBounds ∧ ¬ (0 ≤ s'.mar ∧ s'.mar < s.cfg.cells)) ∨
    (s'.fault = .overflow ∧ s.cfg.overflow = .fault ∧ s'.acc = s.acc)

/-- R62: a STA over the next instruction is seen by the next fetch. -/
def Obligations.StoredWordIsTheNextFetched : Prop :=
  ∀ (s : State) (t : Nat), t ≤ 99 → s.AtWord (300 + t) → (t : Int) = s.pc + 1 → t < s.cfg.cells → Memory.wf s.mem = true →
    ∃ s', step s = .next s' ∧ s'.AtWord s.acc

/-- R123: ADD then SUB of one cell restores ACC, whatever the values (policy `wrap`, D2). -/
def Obligations.AddThenSubRestoresAcc : Prop :=
  ∀ (s s1 : State) (t : Nat), 1 ≤ s.cfg.width → s.cfg.overflow = .wrap → s.cfg.InRange s.acc → t < s.cfg.cells →
    exec (.add t) s = .next s1 → ∃ s2, exec (.sub t) s1 = .next s2 ∧ s2.acc = s.acc

/-- R30 and 93_implementation_defined.md U4: what MAR, MDR, CIR and OP hold when a cycle begins influences nothing, once the
fetch succeeds and the machine does not wait. -/
def Obligations.OldMarMdrCirOpInfluenceNothing : Prop :=
  ∀ (s : State) (mar mdr cir : Int) (op : Op), s.run = .running → 0 ≤ s.pc → s.pc < s.cfg.cells →
    ¬ (s.AtWord 901 ∧ s.input = []) →
    step { s with mar := mar, mdr := mdr, cir := cir, op := op } = step s

-- ==== Invariants ====

/-- `State.reset` satisfies the invariant, as does the reset state of every machine with legal parameters (R6) and items the
channel may hold. -/
def Obligations.ResetStatesAreWellFormed : Prop :=
  State.reset.Wf ∧
  ∀ (c : Config) (items : List InputItem), c.Legal → (∀ item ∈ items, item.Fits c) → (State.initial c items).Wf

/-- Every step keeps the invariant `State.Wf`: legal parameters, canonical memory below `N`, every register, cell, item and
output value a word, PC in `0 .. N` (or `N + 1` after the faulting fetch), no fault in a running machine, and FAULT one of the spec's three values (R29)
unless the policy is `fault`. -/
def Obligations.StepKeepsWellFormed : Prop :=
  ∀ s s' : State, s.Wf → step s = .next s' → s'.Wf

/-- Every event of the machine and of its surroundings, the host's operations and the arrival of input among them, keeps the
invariant. -/
def Obligations.EveryEventKeepsWellFormed : Prop :=
  ∀ (e : Event) (s : State), s.Wf → (State.after e s).Wf

/-- R24: whatever the host does, PC lies in `0 .. N` whenever the machine is running, and never passes `N + 1`. (PC = N + 1 and
MAR = N of the machine stopped by the fetch at N are D7, log 9.) -/
def Obligations.PcStaysInMemoryFromReset : Prop :=
  ∀ (c : Config) (items : List InputItem) (events : List Event), c.Legal → (∀ item ∈ items, item.Fits c) →
    let s := State.afterAll events (State.initial c items)
    s.cfg = c ∧ 0 ≤ s.pc ∧ s.pc ≤ c.cells + 1 ∧ (s.run = .running → s.pc ≤ c.cells) ∧
    (s.pc = c.cells + 1 → s.run = .halted ∧ s.fault = .outOfBounds ∧ s.mar = c.cells)

/-- R25: with the registers reset to 0 (D4), MAR is outside memory only in a machine stopped on `OutOfBounds`. -/
def Obligations.MarNamesACellUnlessOutOfBounds : Prop :=
  ∀ (c : Config) (items : List InputItem) (events : List Event), c.Legal → c.resetRegs = .zero →
    (∀ item ∈ items, item.Fits c) →
    let s := State.afterAll events (State.initial c items)
    s.fault ≠ .outOfBounds → 0 ≤ s.mar ∧ s.mar < c.cells

/-- R29, R179: once FAULT is set nothing but reset clears it, and the machine executes nothing more: registers and output stay
(the latch and its stickiness are D6 and D8). -/
def Obligations.FaultStaysUntilReset : Prop :=
  ∀ (events : List Event) (s : State), s.run = .halted → s.fault ≠ .none → .reset ∉ events →
    let s' := State.afterAll events s
    s'.run = .halted ∧ s'.fault = s.fault ∧ s'.pc = s.pc ∧ s'.mar = s.mar ∧ s'.mdr = s.mdr ∧ s'.cir = s.cir ∧
    s'.acc = s.acc ∧ s'.op = s.op ∧ s'.output = s.output

-- ==== The host ====

/-- R203: while the machine runs, poke, assemble, start and inspect are refused (D9). -/
def Obligations.HostIsShutOutWhileRunning : Prop :=
  ∀ (s : State) (a v : Int) (program : List Text), s.run = .running →
    hostPoke a v s = .refused .notHalted ∧ hostAssemble program s = .refused .notHalted ∧
    hostStart s = .refused .notHalted ∧ hostInspect s = .refused .notHalted

/-- R205: start sets RUN and nothing else, and is refused while FAULT is set (D8). -/
def Obligations.StartSetsRunOnly : Prop :=
  ∀ s : State, s.run = .halted →
    (s.fault = .none → hostStart s = .done { s with run := .running }) ∧
    (s.fault ≠ .none → hostStart s = .refused .faultLatched)

/-- R206: poke writes one cell, or is refused without effect (D20, D21). -/
def Obligations.PokeWritesOneCell : Prop :=
  ∀ (s : State) (a v : Int), s.run = .halted → Memory.wf s.mem = true →
    (0 ≤ a → a < s.cfg.cells → s.cfg.InRange v → ∃ m : Memory,
      hostPoke a v s = .done { s with mem := m } ∧ Memory.wf m = true ∧
      ∀ b : Nat, Memory.read m b = if (b : Int) = a then v else Memory.read s.mem b) ∧
    ((a < 0 ∨ (s.cfg.cells : Int) ≤ a ∨ ¬ s.cfg.InRange v) → ∃ r, hostPoke a v s = .refused r)

/-- R204: a successful assembly writes its words to cells 0 to L-1 and changes nothing else; a failed one changes nothing. -/
def Obligations.AssembleWritesCellsFromZero : Prop :=
  ∀ (s : State) (program : List Text), s.run = .halted → Memory.wf s.mem = true →
    (∀ words, assemble s.cfg program = .ok words → ∃ m : Memory,
      hostAssemble program s = .done { s with mem := m } ∧ Memory.wf m = true ∧
      ∀ a : Nat, Memory.read m a = (words[a]?).getD (Memory.read s.mem a)) ∧
    (∀ e, assemble s.cfg program = .error e → hostAssemble program s = .refused (.assembly e))

/-- R84, R93 to R95: what the assembler accepts is one instruction word for each line, and no more than memory holds. -/
def Obligations.AssembledWordsAreInstructions : Prop :=
  ∀ (c : Config) (program : List Text) (words : List Int), assemble c program = .ok words →
    words.length = program.length ∧ words.length ≤ c.cells ∧
    ∀ w ∈ words, 0 ≤ w ∧ w ≤ 902 ∧ decodeOp w ≠ .unknown

/-- R83 with R90 and R92: the written form of a word of ADD, SUB, STA or LDA assembles back to the word. -/
def Obligations.WrittenInstructionAssemblesBack : Prop :=
  ∀ (c : Config) (w : Int), 1 ≤ c.cells →
    (decodeOp w = .add ∨ decodeOp w = .sub ∨ decodeOp w = .sta ∨ decodeOp w = .lda) →
    ∃ line, disassemble w = some line ∧ assemble c [line] = .ok [w]

/-- R78, R202, vector H2: a machine just reset and started fetches cell 0, which holds 0, a HLT. -/
def Obligations.EmptyMachineHaltsAtOnce : Prop :=
  ∀ (c : Config) (items : List InputItem), 1 ≤ c.cells →
    ∃ s1, hostStart (State.initial c items) = .done s1 ∧
      step s1 = .next { State.initial c items with pc := 1, mar := 0, mdr := 0, cir := 0, op := .hlt }

/-- A word placed where the next fetch reads is the word the next step runs, the input item INP needs included (log 17); and
`decodeTableWord` is the decoder on the 32-bit word (log 18). -/
def Obligations.PlacedWordRunsNext : Prop :=
  (∀ (s : State) (nbits w : Nat), 1 ≤ s.cfg.cells → Memory.wf s.mem = true →
    (s.withFetchWord nbits w).AtWord (wordOfBits s.cfg.width w) ∧
    ∀ i : Instr, decode (wordOfBits s.cfg.width w) = .instr i →
      step (s.withFetchWord nbits w) = exec i ((s.withFetchWord nbits w).fetched (wordOfBits s.cfg.width w))) ∧
  (∀ (nbits w : Nat) (i : Instr), decodeTableWord nbits w = some i ↔ decode (wordOfBits 32 w) = .instr i)

-- ==== The sequencer ====

/-- R111: running the phases one by one from FETCH, 1 to 4 of them, does what one step does, and ends between two
instructions again (the phases are the spec's own refinement, D19; log 15). -/
def Obligations.SequencerRefinesTheStep : Prop :=
  ∀ s : State, s.run = .running → ¬ (s.AtWord 901 ∧ s.input = []) →
    ∃ s' k, step s = .next s' ∧ 1 ≤ k ∧ k ≤ 4 ∧ ticks k (Sequencer.between s) = .next (Sequencer.between s')

/-- R153: the sequencer reaches EXECUTE after two phases, fetch and decode done, and stays there while no item comes. -/
def Obligations.SequencerShowsTheWaitingInp : Prop :=
  ∀ s : State, s.AtWord 901 → s.input = [] →
    let waiting : Sequencer :=
      ⟨.execute, { s with pc := s.pc + 1, mar := s.pc, mdr := 901, cir := 901, op := .inp }⟩
    ticks 2 (Sequencer.between s) = .next waiting ∧ tick waiting = .next waiting ∧
    (∀ item, ∃ s', step (supplyInput item s) = .next s' ∧
      tick { waiting with core := supplyInput item waiting.core } = .next (Sequencer.between s'))

/-- R111: `HALTED -> FETCH` on start and on nothing else of the host's, `HALTED` after a reset in any phase, and the phase is HALTED
exactly while RUN = HALTED, whatever happens (D8, D19; log 15). -/
def Obligations.SequencerPhaseAgreesWithRun : Prop :=
  (∀ s : State, s.run = .halted →
    (s.fault = .none → Sequencer.after .start (Sequencer.between s) = ⟨.fetch, { s with run := .running }⟩) ∧
    (s.fault ≠ .none → Sequencer.after .start (Sequencer.between s) = Sequencer.between s)) ∧
  (∀ q : Sequencer, Sequencer.after .reset q = Sequencer.between (hostReset q.core)) ∧
  ∀ (e : Event) (q : Sequencer), (q.phase = .halted ↔ q.core.run = .halted) →
    ((Sequencer.after e q).phase = .halted ↔ (Sequencer.after e q).core.run = .halted) ∧
    (q.phase = .halted → (Sequencer.after e q).phase ≠ .halted → e = .start ∧ (Sequencer.after e q).phase = .fetch)

-- ==== The input channel as an argument ====

/-- R34, R35, R153: a machine fed from any sequence of items, finite or infinite, does in one cycle what `step` does on a channel
that holds the next `k` items, for every `k` from 1 on, and takes at most one. With an infinite sequence an INP never waits; with a
finite one it waits exactly when the items are exhausted, and nothing changes (D12, D30; log 6, 7). -/
def Obligations.InputSequenceDrivesTheStep : Prop :=
  (∀ (source : InputSequence) (m : Fed) (k : Nat), 1 ≤ k →
    ∃ m', m.step source = .next m' ∧ m.taken ≤ m'.taken ∧ m'.taken ≤ m.taken + 1 ∧
      step (m.seeing source k) = .next (m'.seeing source (k - (m'.taken - m.taken)))) ∧
  (∀ (item : Nat → InputItem) (m : Fed), m.core.AtWord 901 →
    m.step (.infinite item) = .next
      ⟨{ m.core with
          pc := m.core.pc + 1, mar := m.core.pc, mdr := 901, cir := 901, op := .inp,
          acc := ((item m.taken).fitted m.core.cfg).value, input := [] }, m.taken + 1⟩) ∧
  (∀ (items : List InputItem) (m : Fed), m.core.AtWord 901 → m.core.input = [] →
    (m.step (.finite items) = .next m ↔ items.length ≤ m.taken))
end

