-- ==== Sys2Proof/Laws/Decode.lean ====
section
/-! SUPPORT. The decoder's and encoder's table lookups, computed. -/

namespace Sys2Proof

/-- The lookup by quotient, as a chain of tests. -/
theorem opOfQuotient_eq (q : Int) :
    opOfQuotient q =
      if q = 0 then .hlt else if q = 1 then .add else if q = 2 then .sub else if q = 3 then .sta
      else if q = 5 then .lda else if q = 6 then .bra else if q = 7 then .brz else if q = 8 then .brp
      else .unknown := by
  simp only [opOfQuotient, opcodeTable, List.find?_cons, List.find?_nil]
  by_cases h0 : q = 0
  · subst h0; rfl
  by_cases h1 : q = 1
  · subst h1; rfl
  by_cases h2 : q = 2
  · subst h2; rfl
  by_cases h3 : q = 3
  · subst h3; rfl
  by_cases h5 : q = 5
  · subst h5; rfl
  by_cases h6 : q = 6
  · subst h6; rfl
  by_cases h7 : q = 7
  · subst h7; rfl
  by_cases h8 : q = 8
  · subst h8; rfl
  have ne : ∀ k : Int, q ≠ k → (k == q) = false := fun k hk => by simp [Ne.symm hk]
  simp [ne, h0, h1, h2, h3, h5, h6, h7, h8]

/-- The decoder's operation: the two sentinels first, then the quotient. -/
theorem decodeOp_eq (w : Int) :
    decodeOp w = if w = 901 then .inp else if w = 902 then .out else opOfQuotient (tdiv w 100) := by
  simp only [decodeOp, sentinelTable, List.find?_cons, List.find?_nil]
  by_cases h1 : w = 901
  · subst h1; rfl
  by_cases h2 : w = 902
  · subst h2; rfl
  have ne : ∀ k : Int, w ≠ k → (k == w) = false := fun k hk => by simp [Ne.symm hk]
  simp [ne, h1, h2]

theorem decodeOp_ofQuotient {w : Int} (h1 : w ≠ 901) (h2 : w ≠ 902) : decodeOp w = opOfQuotient (tdiv w 100) := by
  simp [decodeOp_eq, h1, h2]

@[simp] theorem pack_eq (a : Int) :
    pack .hlt a = a ∧ pack .add a = 100 + a ∧ pack .sub a = 200 + a ∧ pack .sta a = 300 + a ∧ pack .lda a = 500 + a ∧
    pack .bra a = 600 + a ∧ pack .brz a = 700 + a ∧ pack .brp a = 800 + a := by
  have opcode : packedOpcode .hlt = some 0 ∧ packedOpcode .add = some 1 ∧ packedOpcode .sub = some 2 ∧
      packedOpcode .sta = some 3 ∧ packedOpcode .lda = some 5 ∧ packedOpcode .bra = some 6 ∧
      packedOpcode .brz = some 7 ∧ packedOpcode .brp = some 8 := by decide
  simp [pack, opcode]

/-- What an instruction decodes to says which operation the decoder chose. -/
theorem decode_instr_op {w : Int} {i : Instr} (h : decode w = .instr i) : i.op = decodeOp w := by
  unfold decode at h
  cases hop : decodeOp w <;> rw [hop] at h <;> simp only [Decoded.instr.injEq, reduceCtorEq] at h <;> subst h <;> rfl

/-- The operand of a decoded instruction is the operand field, and only the operand-taking operations have one. -/
theorem decode_instr_operand {w : Int} {i : Instr} (h : decode w = .instr i) :
    i.operand = if (decodeOp w).takesOperand then some (operandField w) else none := by
  unfold decode at h
  cases hop : decodeOp w <;> rw [hop] at h <;> simp only [Decoded.instr.injEq, reduceCtorEq] at h <;> subst h <;> rfl

@[simp] theorem instr?_eq_some (d : Decoded) (i : Instr) : d.instr? = some i ↔ d = .instr i := by
  cases d <;> simp [Decoded.instr?]

/-- Only the sentinel word 901 is an INP. -/
theorem decode_instr_inp {w : Int} (h : decode w = .instr .inp) : w = 901 := by
  have hop : Op.inp = decodeOp w := decode_instr_op h
  rw [decodeOp_eq, opOfQuotient_eq] at hop
  by_contra hne
  rw [if_neg hne] at hop
  (repeat' split at hop) <;> simp at hop

theorem decode_reserved_op {w : Int} {r : Reserved} (h : decode w = .reserved r) : decodeOp w = .unknown := by
  unfold decode at h
  cases hop : decodeOp w <;> rw [hop] at h <;> simp at h ⊢

end Sys2Proof
end

