-- ==== Sys2Proof/Laws/State.lean ====
section
/-! SUPPORT. What each named update of the state does to each field: one lemma for each update, a conjunction that simp
splits into one rewrite for each field. -/

namespace Sys2Proof.Machine

@[simp] theorem raise_fields (x : Fatal) (s : State) :
    (raise x s).cfg = s.cfg ∧ (raise x s).pc = s.pc ∧ (raise x s).mar = s.mar ∧ (raise x s).mdr = s.mdr ∧
    (raise x s).cir = s.cir ∧ (raise x s).acc = s.acc ∧ (raise x s).run = .halted ∧ (raise x s).fault = x.latch ∧
    (raise x s).op = s.op ∧ (raise x s).mem = s.mem ∧ (raise x s).input = s.input ∧ (raise x s).output = s.output :=
  ⟨rfl, rfl, rfl, rfl, rfl, rfl, rfl, rfl, rfl, rfl, rfl, rfl⟩

@[simp] theorem latchOp_fields (s : State) :
    (latchOp s).cfg = s.cfg ∧ (latchOp s).pc = s.pc ∧ (latchOp s).mar = s.mar ∧ (latchOp s).mdr = s.mdr ∧
    (latchOp s).cir = s.cir ∧ (latchOp s).acc = s.acc ∧ (latchOp s).run = s.run ∧ (latchOp s).fault = s.fault ∧
    (latchOp s).op = decodeOp s.cir ∧ (latchOp s).mem = s.mem ∧ (latchOp s).input = s.input ∧
    (latchOp s).output = s.output :=
  ⟨rfl, rfl, rfl, rfl, rfl, rfl, rfl, rfl, rfl, rfl, rfl, rfl⟩

@[simp] theorem jumpToMar_fields (s : State) :
    (jumpToMar s).cfg = s.cfg ∧ (jumpToMar s).pc = s.mar ∧ (jumpToMar s).mar = s.mar ∧ (jumpToMar s).mdr = s.mdr ∧
    (jumpToMar s).cir = s.cir ∧ (jumpToMar s).acc = s.acc ∧ (jumpToMar s).run = s.run ∧ (jumpToMar s).fault = s.fault ∧
    (jumpToMar s).op = s.op ∧ (jumpToMar s).mem = s.mem ∧ (jumpToMar s).input = s.input ∧
    (jumpToMar s).output = s.output :=
  ⟨rfl, rfl, rfl, rfl, rfl, rfl, rfl, rfl, rfl, rfl, rfl, rfl⟩

@[simp] theorem fetched_fields (s : State) (w : Int) :
    (s.fetched w).cfg = s.cfg ∧ (s.fetched w).pc = s.pc + 1 ∧ (s.fetched w).mar = s.pc ∧ (s.fetched w).mdr = w ∧
    (s.fetched w).cir = w ∧ (s.fetched w).acc = s.acc ∧ (s.fetched w).run = s.run ∧ (s.fetched w).fault = s.fault ∧
    (s.fetched w).op = decodeOp w ∧ (s.fetched w).mem = s.mem ∧ (s.fetched w).input = s.input ∧
    (s.fetched w).output = s.output :=
  ⟨rfl, rfl, rfl, rfl, rfl, rfl, rfl, rfl, rfl, rfl, rfl, rfl⟩

@[simp] theorem operandFault_fields (s : State) (t : Nat) :
    (s.operandFault t).cfg = s.cfg ∧ (s.operandFault t).pc = s.pc ∧ (s.operandFault t).mar = (t : Int) ∧
    (s.operandFault t).mdr = s.mdr ∧ (s.operandFault t).cir = s.cir ∧ (s.operandFault t).acc = s.acc ∧
    (s.operandFault t).run = .halted ∧ (s.operandFault t).fault = .outOfBounds ∧ (s.operandFault t).op = s.op ∧
    (s.operandFault t).mem = s.mem ∧ (s.operandFault t).input = s.input ∧ (s.operandFault t).output = s.output :=
  ⟨rfl, rfl, rfl, rfl, rfl, rfl, rfl, rfl, rfl, rfl, rfl, rfl⟩

@[simp] theorem initial_fields (c : Config) (items : List InputItem) :
    (State.initial c items).cfg = c ∧ (State.initial c items).pc = 0 ∧ (State.initial c items).mar = c.resetMar ∧
    (State.initial c items).mdr = c.resetMdr ∧ (State.initial c items).cir = c.resetCir ∧
    (State.initial c items).acc = c.resetAcc ∧ (State.initial c items).run = .halted ∧
    (State.initial c items).fault = .none ∧ (State.initial c items).op = .unknown ∧ (State.initial c items).mem = [] ∧
    (State.initial c items).input = items ∧ (State.initial c items).output = [] :=
  ⟨rfl, rfl, rfl, rfl, rfl, rfl, rfl, rfl, rfl, rfl, rfl, rfl⟩

@[simp] theorem supplyInput_fields (item : InputItem) (s : State) :
    (supplyInput item s).cfg = s.cfg ∧ (supplyInput item s).pc = s.pc ∧ (supplyInput item s).mar = s.mar ∧
    (supplyInput item s).mdr = s.mdr ∧ (supplyInput item s).cir = s.cir ∧ (supplyInput item s).acc = s.acc ∧
    (supplyInput item s).run = s.run ∧ (supplyInput item s).fault = s.fault ∧ (supplyInput item s).op = s.op ∧
    (supplyInput item s).mem = s.mem ∧ (supplyInput item s).input = s.input ++ [item.fitted s.cfg] ∧
    (supplyInput item s).output = s.output :=
  ⟨rfl, rfl, rfl, rfl, rfl, rfl, rfl, rfl, rfl, rfl, rfl, rfl⟩

@[simp] theorem supplyLine_fields (line : Text) (s : State) :
    (supplyLine line s).cfg = s.cfg ∧ (supplyLine line s).pc = s.pc ∧ (supplyLine line s).mar = s.mar ∧
    (supplyLine line s).mdr = s.mdr ∧ (supplyLine line s).cir = s.cir ∧ (supplyLine line s).acc = s.acc ∧
    (supplyLine line s).run = s.run ∧ (supplyLine line s).fault = s.fault ∧ (supplyLine line s).op = s.op ∧
    (supplyLine line s).mem = s.mem ∧ (supplyLine line s).input = s.input ++ [readInputLine s.cfg line] ∧
    (supplyLine line s).output = s.output :=
  ⟨rfl, rfl, rfl, rfl, rfl, rfl, rfl, rfl, rfl, rfl, rfl, rfl⟩

@[simp] theorem seeing_fields (source : InputSequence) (k : Nat) (m : Fed) :
    (m.seeing source k).cfg = m.core.cfg ∧ (m.seeing source k).pc = m.core.pc ∧ (m.seeing source k).mar = m.core.mar ∧
    (m.seeing source k).mdr = m.core.mdr ∧ (m.seeing source k).cir = m.core.cir ∧ (m.seeing source k).acc = m.core.acc ∧
    (m.seeing source k).run = m.core.run ∧ (m.seeing source k).fault = m.core.fault ∧
    (m.seeing source k).op = m.core.op ∧ (m.seeing source k).mem = m.core.mem ∧
    (m.seeing source k).input = source.window m.core.cfg m.taken k ∧ (m.seeing source k).output = m.core.output :=
  ⟨rfl, rfl, rfl, rfl, rfl, rfl, rfl, rfl, rfl, rfl, rfl, rfl⟩

@[simp] theorem loadFetchWord_fields (w : Int) (s : State) :
    (loadFetchWord w s).cfg = s.cfg ∧ (loadFetchWord w s).pc = fetchAddress s ∧ (loadFetchWord w s).mar = s.mar ∧
    (loadFetchWord w s).mdr = s.mdr ∧ (loadFetchWord w s).cir = s.cir ∧ (loadFetchWord w s).acc = s.acc ∧
    (loadFetchWord w s).run = .running ∧ (loadFetchWord w s).fault = s.fault ∧ (loadFetchWord w s).op = s.op ∧
    (loadFetchWord w s).mem = s.mem.write (fetchAddress s).toNat w ∧
    (loadFetchWord w s).input = inputReady w s.input ∧ (loadFetchWord w s).output = s.output :=
  ⟨rfl, rfl, rfl, rfl, rfl, rfl, rfl, rfl, rfl, rfl, rfl, rfl⟩

@[simp] theorem withFetchWord_eq (s : State) (nbits w : Nat) :
    s.withFetchWord nbits w = loadFetchWord (wordOfBits s.cfg.width w) s := rfl

end Sys2Proof.Machine
end

