-- ==== Sys2Proof/Laws/Ops.lean ====
section
/-! SUPPORT. One lemma for each shared operation: everything it can do. -/

namespace Sys2Proof.Machine

theorem memRead_of_inBounds {s : State} {a : Int} (h : inBounds s.cfg a) : memRead s a = some (s.mem.read a.toNat) :=
  if_pos h

theorem memRead_of_not_inBounds {s : State} {a : Int} (h : ¬ inBounds s.cfg a) : memRead s a = none := if_neg h

/-- A read that happens is of a cell inside memory. -/
theorem memRead_eq_some {s : State} {a v : Int} (h : memRead s a = some v) :
    inBounds s.cfg a ∧ v = s.mem.read a.toNat := by
  unfold memRead at h
  split at h
  · next hb => exact ⟨hb, by simpa using h.symm⟩
  · simp at h

theorem memRead_eq_none {s : State} {a : Int} (h : memRead s a = none) : ¬ inBounds s.cfg a := by
  unfold memRead at h
  split at h
  · simp at h
  · assumption

@[simp] theorem inBounds_natCast {c : Config} {t : Nat} : inBounds c (t : Int) ↔ t < c.cells := by
  simp [inBounds]

/-- A fetch that succeeds leaves MAR at the old PC, PC one further, and the word in MDR and CIR. -/
theorem fetch_of_read {s : State} {w : Int} (h : memRead s s.pc = some w) :
    fetch s = .goesOn { s with mar := s.pc, pc := s.pc + 1, mdr := w, cir := w } := by
  have h' : memRead { s with mar := s.pc, pc := s.pc + 1 } s.pc = some w := h
  simp [fetch, readIntoMdr, h']

/-- A fetch outside memory has written MAR and PC and nothing else before it raises. -/
theorem fetch_of_no_read {s : State} (h : memRead s s.pc = none) :
    fetch s = .raised (raise .outOfBounds { s with mar := s.pc, pc := s.pc + 1 }) := by
  have h' : memRead { s with mar := s.pc, pc := s.pc + 1 } s.pc = none := h
  simp [fetch, readIntoMdr, h']

theorem resolve_of_lt {s : State} {t : Nat} (h : t < s.cfg.cells) :
    resolve t s = .goesOn { s with mar := (t : Int), mdr := s.mem.read t } := by
  have h' : memRead { s with mar := (t : Int) } (t : Int) = some (s.mem.read t) := by
    simpa using memRead_of_inBounds (s := { s with mar := (t : Int) }) (inBounds_natCast.2 h)
  simp [resolve, readIntoMdr, h']

theorem resolve_of_not_lt {s : State} {t : Nat} (h : ¬ t < s.cfg.cells) :
    resolve t s = .raised (s.operandFault t) := by
  have h' : memRead { s with mar := (t : Int) } (t : Int) = none :=
    memRead_of_not_inBounds (fun hb => h (inBounds_natCast.1 hb))
  simp [resolve, readIntoMdr, h', raise, State.operandFault, Fatal.latch]

/-- An operand in memory is resolved and the instruction executes. -/
theorem withOperand_of_lt {s : State} {t : Nat} (h : t < s.cfg.cells) (execute : State → Out) :
    withOperand t s execute = execute { s with mar := (t : Int), mdr := s.mem.read t } := by
  simp [withOperand, resolve_of_lt h]

/-- An operand outside memory raises `OutOfBounds` and nothing is executed. -/
theorem withOperand_of_not_lt {s : State} {t : Nat} (h : ¬ t < s.cfg.cells) (execute : State → Out) :
    withOperand t s execute = .next (s.operandFault t) := by
  simp [withOperand, resolve_of_not_lt h]

/-- Everything an accumulation can do: it writes ACC only, with the wrapped result or, where the policy is `fault`, the exact
one; or it raises the overflow, where the policy is `fault` and no word holds the result. -/
theorem accumulate_cases (exact : Int) (s : State) :
    ((s.cfg.overflow = .fault → s.cfg.InRange exact) ∧
      accumulate exact s = .next { s with acc := if s.cfg.overflow = .wrap then wrap s.cfg exact else exact }) ∨
    (s.cfg.overflow = .fault ∧ ¬ s.cfg.InRange exact ∧ accumulate exact s = .next (raise .overflow s)) := by
  unfold accumulate
  cases s.cfg.overflow
  · simp
  · by_cases hr : s.cfg.InRange exact
    · exact .inl ⟨fun _ => hr, by simp only [if_pos hr]; simp⟩
    · exact .inr ⟨rfl, hr, by simp only [if_neg hr]⟩

theorem executeSta_of_inBounds {s : State} (h : inBounds s.cfg s.mar) :
    executeSta s = .next { s with mem := s.mem.write s.mar.toNat s.acc, mdr := mdrAfterStore s } := by
  simp only [executeSta, memWrite, if_pos h]

/-- Everything a step can be: no cycle, a fetch outside memory, a reserved word, a wait, or an instruction's meaning. -/
theorem step_cases (s : State) :
    (s.run = .halted ∧ step s = .next s) ∨
    (s.run = .running ∧ memRead s s.pc = none ∧
      step s = .next (raise .outOfBounds { s with mar := s.pc, pc := s.pc + 1 })) ∨
    (∃ w r, s.AtWord w ∧ decode w = .reserved r ∧ step s = .next (raise .unknownOpcode (s.fetched w))) ∨
    (s.Waits ∧ step s = .next s) ∨
    (∃ w i, s.AtWord w ∧ decode w = .instr i ∧ ¬ (i = .inp ∧ s.input = []) ∧ step s = exec i (s.fetched w)) := by
  cases hr : s.run with
  | halted => exact .inl ⟨rfl, by simp [step, hr]⟩
  | running =>
    right
    cases hm : memRead s s.pc with
    | none => exact .inl ⟨rfl, rfl, by simp [step, hr, fetch_of_no_read hm]⟩
    | some w =>
      right
      cases hd : decode w with
      | reserved r =>
        exact .inl ⟨w, r, ⟨hr, hm⟩, hd, by
          simp [step, hr, fetch_of_read hm, hd, executeUnknown, latchOp, State.fetched]⟩
      | instr i =>
        right
        by_cases hw : i = .inp ∧ s.input = []
        · left
          have h901 : w = 901 := decode_instr_inp (hw.1 ▸ hd)
          subst h901
          exact ⟨⟨⟨hr, hm⟩, hw.2⟩, by simp [step, hr, fetch_of_read hm, hd, holds, hw]⟩
        · exact .inr ⟨w, i, ⟨hr, hm⟩, hd, hw, by
            simp [step, hr, fetch_of_read hm, hd, holds, hw, latchOp, State.fetched]⟩

end Sys2Proof.Machine
end

