-- ==== Sys2Proof/Laws/Exec.lean ====
section
/-! SUPPORT. Everything the meaning of an instruction can do, for each instruction, said once. -/

namespace Sys2Proof.Machine

theorem mdrAfterStore_eq (s : State) : mdrAfterStore s = if s.cfg.mdrAfterSta = .old then s.mdr else s.acc := by
  unfold mdrAfterStore
  cases s.cfg.mdrAfterSta <;> simp

/-- What an instruction does once its operand, if it has one, is in memory: an ADD or SUB writes ACC or raises an overflow,
an INP waits or takes an item, and every other one has its one effect. -/
def Effect (i : Instr) (s s' : State) : Prop :=
  match i with
  | .hlt _ => s' = { s with run := .halted }
  | .add t => accumulate (s.acc + s.mem.read t) { s with mar := (t : Int), mdr := s.mem.read t } = .next s'
  | .sub t => accumulate (s.acc - s.mem.read t) { s with mar := (t : Int), mdr := s.mem.read t } = .next s'
  | .sta t => s' = { s with
      mar := (t : Int), mem := s.mem.write t s.acc,
      mdr := if s.cfg.mdrAfterSta = .old then s.mem.read t else s.acc }
  | .lda t => s' = { s with mar := (t : Int), mdr := s.mem.read t, acc := s.mem.read t }
  | .bra t => s' = { s with mar := (t : Int), mdr := s.mem.read t, pc := (t : Int) }
  | .brz t => s' = { s with
      mar := (t : Int), mdr := s.mem.read t, pc := if s.acc = 0 then (t : Int) else s.pc }
  | .brp t => s' = { s with
      mar := (t : Int), mdr := s.mem.read t, pc := if 0 ≤ s.acc then (t : Int) else s.pc }
  | .inp => (s.input = [] ∧ s' = s) ∨ ∃ item rest, s.input = item :: rest ∧ s' = { s with acc := item.value, input := rest }
  | .out => s' = { s with output := s.output ++ [s.acc] }

/-- Every instruction answers a next state, with its effect where its operand is in memory. -/
theorem exec_of_operand_inside {i : Instr} {s : State} (h : ∀ t, i.operand = some t → t < s.cfg.cells) :
    ∃ s', exec i s = .next s' ∧ Effect i s s' := by
  cases i with
  | hlt _ => exact ⟨_, rfl, rfl⟩
  | out => exact ⟨_, rfl, rfl⟩
  | inp =>
    simp only [exec, execInp, executeInp, Effect]
    cases hi : s.input with
    | nil => exact ⟨s, rfl, .inl ⟨rfl, rfl⟩⟩
    | cons item rest => exact ⟨_, rfl, .inr ⟨item, rest, rfl, rfl⟩⟩
  | add t =>
    simp only [exec, execAdd, withOperand_of_lt (h t rfl), executeAdd, Effect]
    rcases accumulate_cases (s.acc + s.mem.read t) { s with mar := (t : Int), mdr := s.mem.read t } with ⟨_, ha⟩ | ⟨_, _, ha⟩ <;>
      exact ⟨_, ha, ha⟩
  | sub t =>
    simp only [exec, execSub, withOperand_of_lt (h t rfl), executeSub, Effect]
    rcases accumulate_cases (s.acc - s.mem.read t) { s with mar := (t : Int), mdr := s.mem.read t } with ⟨_, ha⟩ | ⟨_, _, ha⟩ <;>
      exact ⟨_, ha, ha⟩
  | lda t => exact ⟨_, by simp only [exec, execLda, withOperand_of_lt (h t rfl), executeLda], rfl⟩
  | sta t =>
    refine ⟨_, ?_, rfl⟩
    simp only [exec, execSta, withOperand_of_lt (h t rfl)]
    rw [executeSta_of_inBounds (by simpa using h t rfl)]
    simp [mdrAfterStore_eq]
  | bra t => exact ⟨_, by simp only [exec, execBra, withOperand_of_lt (h t rfl), executeBra, jumpToMar], rfl⟩
  | brz t =>
    refine ⟨_, ?_, rfl⟩
    by_cases ha : s.acc = 0 <;> simp [exec, execBrz, withOperand_of_lt (h t rfl), executeBrz, jumpToMar, ha, accIsZero]
  | brp t =>
    refine ⟨_, ?_, rfl⟩
    by_cases ha : 0 ≤ s.acc <;>
      simp [exec, execBrp, withOperand_of_lt (h t rfl), executeBrp, jumpToMar, ha, accIsNotNegative]

/-- Everything an instruction can do: stop on its operand, or have its effect. -/
theorem exec_cases (i : Instr) (s : State) :
    (∃ t, i.operand = some t ∧ s.cfg.cells ≤ t ∧ exec i s = .next (s.operandFault t)) ∨
    ((∀ t, i.operand = some t → t < s.cfg.cells) ∧ ∃ s', exec i s = .next s' ∧ Effect i s s') := by
  by_cases h : ∀ t, i.operand = some t → t < s.cfg.cells
  · exact .inr ⟨h, exec_of_operand_inside h⟩
  · push Not at h
    obtain ⟨t, hi, ht⟩ := h
    refine .inl ⟨t, hi, ht, ?_⟩
    have hn : ¬ t < s.cfg.cells := by omega
    cases i <;> simp only [Instr.operand, reduceCtorEq, Option.some.injEq] at hi <;> subst hi <;>
      exact withOperand_of_not_lt hn _

end Sys2Proof.Machine
end

