-- ==== Sys2Proof/Laws/HostOps.lean ====
section
/-! SUPPORT. One lemma for each host operation: everything it can answer. -/

namespace Sys2Proof.Machine

/-- A start sets RUN in a halted machine without a fault, or is refused. -/
theorem hostStart_cases (s : State) :
    (∃ r, hostStart s = .refused r) ∨
    (s.run = .halted ∧ s.fault = .none ∧ hostStart s = .done { s with run := .running }) := by
  cases hr : s.run with
  | running => exact .inl ⟨.notHalted, by simp only [hostStart, whileHalted, hr]⟩
  | halted =>
    by_cases hf : s.fault = .none
    · exact .inr ⟨rfl, hf, by simp only [hostStart, whileHalted, hr, if_pos hf]⟩
    · exact .inl ⟨.faultLatched, by simp only [hostStart, whileHalted, hr, if_neg hf]⟩

/-- A poke writes one cell of a halted machine, with a word, or is refused. -/
theorem hostPoke_cases (a v : Int) (s : State) :
    (∃ r, hostPoke a v s = .refused r) ∨
    (s.run = .halted ∧ inBounds s.cfg a ∧ s.cfg.InRange v ∧
      hostPoke a v s = .done { s with mem := s.mem.write a.toNat v }) := by
  cases hr : s.run with
  | running => exact .inl ⟨.notHalted, by simp only [hostPoke, whileHalted, hr]⟩
  | halted =>
    by_cases hb : inBounds s.cfg a
    · by_cases hv : s.cfg.InRange v
      · exact .inr ⟨rfl, hb, hv, by simp only [hostPoke, whileHalted, hr, memWrite, if_pos hb, if_pos hv]⟩
      · exact .inl ⟨.valueOutOfRange, by simp only [hostPoke, whileHalted, hr, memWrite, if_pos hb, if_neg hv]⟩
    · exact .inl ⟨.addressOutOfBounds, by simp only [hostPoke, whileHalted, hr, memWrite, if_neg hb]⟩

/-- An assembly writes its words from cell 0 of a halted machine, or is refused. -/
theorem hostAssemble_cases (program : List Text) (s : State) :
    (∃ r, hostAssemble program s = .refused r) ∨
    (∃ words, s.run = .halted ∧ assemble s.cfg program = .ok words ∧
      hostAssemble program s = .done { s with mem := s.mem.writeFrom 0 words }) := by
  cases hr : s.run with
  | running => exact .inl ⟨.notHalted, by simp only [hostAssemble, whileHalted, hr]⟩
  | halted =>
    cases ha : assemble s.cfg program with
    | ok words => exact .inr ⟨words, rfl, rfl, by simp only [hostAssemble, whileHalted, hr, ha]⟩
    | error e => exact .inl ⟨.assembly e, by simp only [hostAssemble, whileHalted, hr, ha]⟩

/-- Everything an event other than a cycle can do: nothing, a reset, a start, a write to memory by the host, or an item. -/
theorem after_cases {e : Event} (he : e ≠ .cycle) (s : State) :
    State.after e s = s ∨
    (e = .reset ∧ State.after e s = hostReset s) ∨
    (s.run = .halted ∧ s.fault = .none ∧ State.after e s = { s with run := .running }) ∨
    (∃ a v, s.run = .halted ∧ inBounds s.cfg a ∧ s.cfg.InRange v ∧
      State.after e s = { s with mem := s.mem.write a.toNat v }) ∨
    (∃ program words, s.run = .halted ∧ assemble s.cfg program = .ok words ∧
      State.after e s = { s with mem := s.mem.writeFrom 0 words }) ∨
    (∃ item, State.after e s = { s with input := s.input ++ [InputItem.fitted s.cfg item] }) ∨
    (∃ line, State.after e s = { s with input := s.input ++ [readInputLine s.cfg line] }) := by
  cases e with
  | cycle => exact absurd rfl he
  | reset => exact .inr (.inl ⟨rfl, rfl⟩)
  | start =>
    rcases hostStart_cases s with ⟨r, h⟩ | ⟨hr, hf, h⟩
    · exact .inl (by simp [State.after, h, HostReply.orElse])
    · exact .inr (.inr (.inl ⟨hr, hf, by simp [State.after, h, HostReply.orElse]⟩))
  | poke a v =>
    rcases hostPoke_cases a v s with ⟨r, h⟩ | ⟨hr, hb, hv, h⟩
    · exact .inl (by simp [State.after, h, HostReply.orElse])
    · exact .inr (.inr (.inr (.inl ⟨a, v, hr, hb, hv, by simp [State.after, h, HostReply.orElse]⟩)))
  | assemble program =>
    rcases hostAssemble_cases program s with ⟨r, h⟩ | ⟨words, hr, ha, h⟩
    · exact .inl (by simp [State.after, h, HostReply.orElse])
    · exact .inr (.inr (.inr (.inr (.inl ⟨program, words, hr, ha, by simp [State.after, h, HostReply.orElse]⟩))))
  | inspect => exact .inl rfl
  | input item => exact .inr (.inr (.inr (.inr (.inr (.inl ⟨item, rfl⟩)))))
  | inputLine line => exact .inr (.inr (.inr (.inr (.inr (.inr ⟨line, rfl⟩)))))

end Sys2Proof.Machine
end

