-- ==== Sys2Proof/Laws/Memory.lean ====
section
/-! SUPPORT. The laws of memory: a read after a write, and that every memory operation keeps the canonical form and the
bounds of the parameters. -/

namespace Sys2Proof.Machine

@[simp] theorem Memory.read_nil (a : Nat) : Memory.read [] a = Memory.unlisted := rfl

theorem Memory.read_cons (k : Nat) (v : Int) (m : Memory) (a : Nat) :
    Memory.read ((k, v) :: m) a = if k = a then v else Memory.read m a := rfl

theorem Memory.wf_cons (k : Nat) (v : Int) (m : Memory) :
    Memory.wf ((k, v) :: m) = true ↔
      v ≠ Memory.unlisted ∧ (∀ cell ∈ m, k < cell.1) ∧ Memory.wf m = true := by
  simp [Memory.wf, and_assoc]

/-- A cell that no entry lists reads as unlisted. -/
theorem Memory.read_of_not_listed {m : Memory} {a : Nat} (h : ∀ cell ∈ m, cell.1 ≠ a) :
    Memory.read m a = Memory.unlisted := by
  induction m with
  | nil => rfl
  | cons cell m ih =>
    obtain ⟨k, v⟩ := cell
    have hk : k ≠ a := h (k, v) (by simp)
    rw [Memory.read_cons, if_neg hk]
    exact ih fun c hc => h c (by simp [hc])

theorem Memory.read_put {m : Memory} {a : Nat} (h : ∀ cell ∈ m, cell.1 ≠ a) (v : Int) (b : Nat) :
    Memory.read (Memory.put a v m) b = if b = a then v else Memory.read m b := by
  unfold Memory.put
  split
  · next hv =>
    split
    · next hb => rw [hb, Memory.read_of_not_listed h, hv]
    · rfl
  · rw [Memory.read_cons]
    by_cases hb : b = a
    · simp [hb]
    · simp [hb, Ne.symm hb]

theorem Memory.mem_put {m : Memory} {a : Nat} {v : Int} {cell : Nat × Int} (h : cell ∈ Memory.put a v m) :
    cell = (a, v) ∨ cell ∈ m := by
  unfold Memory.put at h
  split at h
  · exact .inr h
  · simpa using h

theorem Memory.wf_put {m : Memory} {a : Nat} (hm : Memory.wf m = true) (h : ∀ cell ∈ m, a < cell.1) (v : Int) :
    Memory.wf (Memory.put a v m) = true := by
  unfold Memory.put
  split
  · exact hm
  · next hv => exact (Memory.wf_cons a v m).2 ⟨hv, h, hm⟩

/-- Every entry after a write is the one written or was there before. -/
theorem Memory.mem_write {m : Memory} {a : Nat} {v : Int} {cell : Nat × Int} (h : cell ∈ Memory.write m a v) :
    cell = (a, v) ∨ cell ∈ m := by
  induction m with
  | nil => exact Memory.mem_put h
  | cons head m ih =>
    obtain ⟨k, w⟩ := head
    simp only [Memory.write] at h
    split at h
    · exact Memory.mem_put h
    · split at h
      · rcases Memory.mem_put h with h | h
        · exact .inl h
        · exact .inr (by simp [h])
      · rcases List.mem_cons.1 h with h | h
        · exact .inr (by simp [h])
        · rcases ih h with h | h
          · exact .inl h
          · exact .inr (by simp [h])

/-- A write keeps the canonical form. -/
theorem Memory.wf_write {m : Memory} (hm : Memory.wf m = true) (a : Nat) (v : Int) :
    Memory.wf (Memory.write m a v) = true := by
  induction m with
  | nil => exact Memory.wf_put hm (by simp) v
  | cons head m ih =>
    obtain ⟨k, w⟩ := head
    obtain ⟨hw, hlt, hm'⟩ := (Memory.wf_cons k w m).1 hm
    simp only [Memory.write]
    split
    · next hak =>
      refine Memory.wf_put hm ?_ v
      intro cell hc
      rcases List.mem_cons.1 hc with rfl | hc
      · exact hak
      · exact hak.trans (hlt cell hc)
    · split
      · next hak => exact Memory.wf_put hm' (hak ▸ hlt) v
      · refine (Memory.wf_cons k w _).2 ⟨hw, ?_, ih hm'⟩
        intro cell hc
        rcases Memory.mem_write hc with rfl | hc
        · show k < a
          omega
        · exact hlt cell hc

/-- Reading after a write, in a canonical memory. -/
theorem Memory.read_write {m : Memory} (hm : Memory.wf m = true) (a : Nat) (v : Int) (b : Nat) :
    Memory.read (Memory.write m a v) b = if b = a then v else Memory.read m b := by
  induction m with
  | nil => exact Memory.read_put (by simp) v b
  | cons head m ih =>
    obtain ⟨k, w⟩ := head
    obtain ⟨-, hlt, hm'⟩ := (Memory.wf_cons k w m).1 hm
    simp only [Memory.write]
    split
    · next hak =>
      refine Memory.read_put ?_ v b
      intro cell hc
      rcases List.mem_cons.1 hc with rfl | hc
      · exact hak.ne'
      · exact (hak.trans (hlt cell hc)).ne'
    · split
      · next hak =>
        subst hak
        rw [Memory.read_put (fun cell hc => (hlt cell hc).ne'), Memory.read_cons]
        by_cases hb : b = a
        · simp [hb]
        · simp [hb, Ne.symm hb]
      · next _ hak =>
        rw [Memory.read_cons, Memory.read_cons, ih hm']
        by_cases hb : b = a
        · simp [hb, Ne.symm hak]
        · simp [hb]

/-- A write of a word below `N` keeps the memory within the parameters. -/
theorem Memory.fits_write {c : Config} {m : Memory} (hm : Memory.Fits c m) {a : Nat} (ha : a < c.cells) {v : Int}
    (hv : c.InRange v) : Memory.Fits c (Memory.write m a v) := by
  refine ⟨Memory.wf_write hm.1 a v, fun cell hc => ?_⟩
  rcases Memory.mem_write hc with rfl | hc
  · exact ⟨ha, hv⟩
  · exact hm.2 cell hc

theorem Memory.wf_writeFrom {m : Memory} (hm : Memory.wf m = true) (a : Nat) (words : List Int) :
    Memory.wf (Memory.writeFrom m a words) = true := by
  induction words generalizing m a with
  | nil => exact hm
  | cons w words ih => exact ih (Memory.wf_write hm a w) (a + 1)

theorem Memory.fits_writeFrom {c : Config} {m : Memory} (hm : Memory.Fits c m) {a : Nat} {words : List Int}
    (ha : a + words.length ≤ c.cells) (hv : ∀ w ∈ words, c.InRange w) :
    Memory.Fits c (Memory.writeFrom m a words) := by
  induction words generalizing m a with
  | nil => exact hm
  | cons w words ih =>
    simp only [List.length_cons] at ha
    exact ih (Memory.fits_write hm (by omega) (hv w (by simp))) (by omega) fun x hx => hv x (by simp [hx])

/-- The empty memory of a reset is canonical and within any parameters. -/
theorem Memory.fits_nil (c : Config) : Memory.Fits c [] := ⟨rfl, by simp⟩

end Sys2Proof.Machine
end

