-- ==== Sys2Proof/Laws/PerInstr.lean ====
section
/-! SUPPORT. Statements about the instruction as syntax, one lemma for each constructor of `Instr`. -/

/-- Decoding the word of an instruction that some word encodes gives the instruction back, with every operand. -/
def Sys2Proof.Laws.RoundTrip.Statement (i : Sys2Proof.Instr) : Prop :=
  i.wellFormed = true → Sys2Proof.decode (Sys2Proof.encode i) = .instr i

/-- The word of an instruction lies between -99 and 902, so any width of 11 bits or more holds it (00_scope.md R6). -/
def Sys2Proof.Laws.FitsWord.Statement (i : Sys2Proof.Instr) : Prop :=
  i.wellFormed = true → -99 ≤ Sys2Proof.encode i ∧ Sys2Proof.encode i ≤ 902

namespace Sys2Proof.Laws

/-- A packed word splits back into its opcode and operand. -/
theorem tdiv_tmod_packed {w c a : Int} (hw : w = c * 100 + a) (hc : 0 ≤ c) (ha : 0 ≤ a) (ha' : a ≤ 99) :
    tdiv w 100 = c ∧ tmod w 100 = a := by
  unfold tmod tdiv
  constructor <;> rw [if_pos (by omega)] <;> omega

/-- Decoding a packed word of an operand-taking operation. -/
theorem decode_packed {w c : Int} {t : Nat} (hw : w = c * 100 + t) (hc : 0 ≤ c) (hc' : c ≤ 8) (ht : t ≤ 99) :
    decodeOp w = opOfQuotient c ∧ operandField w = t := by
  obtain ⟨hq, hr⟩ := tdiv_tmod_packed hw hc (Int.natCast_nonneg t) (by omega)
  refine ⟨?_, by simp [operandField, hr]⟩
  rw [decodeOp_ofQuotient (by omega) (by omega), hq]

namespace RoundTrip

theorem hlt (field : Int) : Statement (.hlt field) := by
  intro h
  simp only [Instr.wellFormed, hltFieldFits, decide_eq_true_eq] at h
  have hq : tdiv field 100 = 0 := by
    unfold tdiv
    split <;> omega
  have hop : decodeOp field = .hlt := by
    rw [decodeOp_ofQuotient (by omega) (by omega), hq]
    rfl
  simp [encode, decode, hop, tmod, hq]

theorem add (t : Nat) : Statement (.add t) := by
  intro h
  simp only [Instr.wellFormed, operandFits, decide_eq_true_eq] at h
  have hd := decode_packed (w := 100 + t) (c := 1) rfl (by omega) (by omega) h
  simp [encode, decode, hd.1, hd.2, opOfQuotient_eq]

theorem sub (t : Nat) : Statement (.sub t) := by
  intro h
  simp only [Instr.wellFormed, operandFits, decide_eq_true_eq] at h
  have hd := decode_packed (w := 200 + t) (c := 2) rfl (by omega) (by omega) h
  simp [encode, decode, hd.1, hd.2, opOfQuotient_eq]

theorem sta (t : Nat) : Statement (.sta t) := by
  intro h
  simp only [Instr.wellFormed, operandFits, decide_eq_true_eq] at h
  have hd := decode_packed (w := 300 + t) (c := 3) rfl (by omega) (by omega) h
  simp [encode, decode, hd.1, hd.2, opOfQuotient_eq]

theorem lda (t : Nat) : Statement (.lda t) := by
  intro h
  simp only [Instr.wellFormed, operandFits, decide_eq_true_eq] at h
  have hd := decode_packed (w := 500 + t) (c := 5) rfl (by omega) (by omega) h
  simp [encode, decode, hd.1, hd.2, opOfQuotient_eq]

theorem bra (t : Nat) : Statement (.bra t) := by
  intro h
  simp only [Instr.wellFormed, operandFits, decide_eq_true_eq] at h
  have hd := decode_packed (w := 600 + t) (c := 6) rfl (by omega) (by omega) h
  simp [encode, decode, hd.1, hd.2, opOfQuotient_eq]

theorem brz (t : Nat) : Statement (.brz t) := by
  intro h
  simp only [Instr.wellFormed, operandFits, decide_eq_true_eq] at h
  have hd := decode_packed (w := 700 + t) (c := 7) rfl (by omega) (by omega) h
  simp [encode, decode, hd.1, hd.2, opOfQuotient_eq]

theorem brp (t : Nat) : Statement (.brp t) := by
  intro h
  simp only [Instr.wellFormed, operandFits, decide_eq_true_eq] at h
  have hd := decode_packed (w := 800 + t) (c := 8) rfl (by omega) (by omega) h
  simp [encode, decode, hd.1, hd.2, opOfQuotient_eq]

theorem inp : Statement .inp := fun _ => by decide

theorem out : Statement .out := fun _ => by decide

end RoundTrip

namespace FitsWord

theorem hlt (field : Int) : Statement (.hlt field) := by
  intro h
  simp only [Instr.wellFormed, hltFieldFits, decide_eq_true_eq] at h
  simp only [encode, pack_eq]
  omega

theorem add (t : Nat) : Statement (.add t) := by
  intro h
  simp only [Instr.wellFormed, operandFits, decide_eq_true_eq] at h
  simp only [encode, pack_eq]
  omega

theorem sub (t : Nat) : Statement (.sub t) := by
  intro h
  simp only [Instr.wellFormed, operandFits, decide_eq_true_eq] at h
  simp only [encode, pack_eq]
  omega

theorem sta (t : Nat) : Statement (.sta t) := by
  intro h
  simp only [Instr.wellFormed, operandFits, decide_eq_true_eq] at h
  simp only [encode, pack_eq]
  omega

theorem lda (t : Nat) : Statement (.lda t) := by
  intro h
  simp only [Instr.wellFormed, operandFits, decide_eq_true_eq] at h
  simp only [encode, pack_eq]
  omega

theorem bra (t : Nat) : Statement (.bra t) := by
  intro h
  simp only [Instr.wellFormed, operandFits, decide_eq_true_eq] at h
  simp only [encode, pack_eq]
  omega

theorem brz (t : Nat) : Statement (.brz t) := by
  intro h
  simp only [Instr.wellFormed, operandFits, decide_eq_true_eq] at h
  simp only [encode, pack_eq]
  omega

theorem brp (t : Nat) : Statement (.brp t) := by
  intro h
  simp only [Instr.wellFormed, operandFits, decide_eq_true_eq] at h
  simp only [encode, pack_eq]
  omega

theorem inp : Statement .inp := fun _ => by decide

theorem out : Statement .out := fun _ => by decide

end FitsWord

end Sys2Proof.Laws
end

