-- ==== Sys2Proof/Tests/Slice0.lean ====
section
/-! SUPPORT. Small tests against the spec's own examples and vectors (95_test_vectors.md), the smoke test of WellFormed, and
the witnesses that the hypotheses of each statement can be met. -/

namespace Sys2Proof.Tests

open Sys2Proof.Machine

-- ==== Helpers ====

/-- The default machine after reset with some cells filled (addresses rising, no zero), running at cell 0. -/
def running (mem : Memory) : State := { State.reset with mem := mem, run := .running }

/-- The same with `N` cells. -/
def runningIn (n : Nat) (mem : Memory) : State := { running mem with cfg := { cells := n } }

/-- The registers `(PC, MAR, MDR, CIR, ACC)` of a next state, as the vectors list them. -/
def regs : Out → Option (Int × Int × Int × Int × Int)
  | .next s => some (s.pc, s.mar, s.mdr, s.cir, s.acc)
  | .fault _ => none
  | .refused _ => none

/-- RUN and FAULT of a next state. -/
def control : Out → Option (Run × FaultLatch)
  | .next s => some (s.run, s.fault)
  | .fault _ => none
  | .refused _ => none

/-- Memory, IN and OUT of a next state. -/
def stores : Out → Option (Memory × List InputItem × List Int)
  | .next s => some (s.mem, s.input, s.output)
  | .fault _ => none
  | .refused _ => none

-- ==== WellFormed: an ill-formed term for each check, and the edges ====

theorem test_wellFormed_operand_too_large : (Instr.lda 100).wellFormed = false := by decide
theorem test_wellFormed_operand_edge : (Instr.lda 99).wellFormed = true ∧ (Instr.bra 0).wellFormed = true := by decide
theorem test_wellFormed_hlt_field_too_large : (Instr.hlt 100).wellFormed = false := by decide
theorem test_wellFormed_hlt_field_too_small : (Instr.hlt (-100)).wellFormed = false := by decide
theorem test_wellFormed_each_operand_checked :
    [Instr.add 100, .sub 100, .sta 100, .lda 100, .bra 100, .brz 100, .brp 100].all (fun i => !i.wellFormed) = true := by
  decide

-- ==== Decoding: words written out from 30_encoding.md R71, R73, R74; the reserved words of R77 ====

theorem test_decode_arithmetic : decode 111 = .instr (.add 11) ∧ decode 299 = .instr (.sub 99) := by decide
theorem test_decode_loadStore : decode 594 = .instr (.lda 94) ∧ decode 300 = .instr (.sta 0) := by decide
theorem test_decode_branch :
    decode 600 = .instr (.bra 0) ∧ decode 703 = .instr (.brz 3) ∧ decode 899 = .instr (.brp 99) := by decide
theorem test_decode_system :
    decode 0 = .instr (.hlt 0) ∧ decode (-99) = .instr (.hlt (-99)) ∧ decode 901 = .instr .inp ∧ decode 902 = .instr .out := by
  decide
/-- Vectors K6, K7, K13, K15, K22, K25 to K30. -/
theorem test_decode_reserved :
    [-100, -150, 400, 499, 900, 903, 999, 1000, 1901, 2147483647, -2147483648].map decode =
      [.reserved .negative, .reserved .negative, .reserved .opcodeFour, .reserved .opcodeFour, .reserved .opcodeNine,
       .reserved .opcodeNine, .reserved .opcodeNine, .reserved .fourDigits, .reserved .fourDigits, .reserved .fourDigits,
       .reserved .negative] := by decide
/-- R10's worked quotients and remainders. -/
theorem test_tdiv_tmod :
    (tdiv 594 100, tmod 594 100) = (5, 94) ∧ (tdiv (-1) 100, tmod (-1) 100) = (0, -1) ∧
    (tdiv (-100) 100, tmod (-100) 100) = (-1, 0) ∧ (tdiv (-150) 100, tmod (-150) 100) = (-1, -50) := by decide
/-- R80: the samples of S1, and the sentinels. -/
theorem test_encode :
    encode (.sta 91) = 391 ∧ encode (.lda 94) = 594 ∧ encode (.brp 99) = 899 ∧ encode .inp = 901 ∧ encode .out = 902 ∧
    encodeOp .lda 100 = none ∧ encodeOp .lda (-1) = none := by decide
theorem test_decodeTableWord : decodeTableWord 32 594 = some (.lda 94) ∧ decodeTableWord 32 450 = none ∧
    decodeTableWord 32 4294967295 = some (.hlt (-1)) := by decide

-- ==== One step of each instruction (vectors of 95_test_vectors.md) ====

/-- The example of R120. -/
theorem test_add : regs (step { running [(1, 111), (11, 9)] with pc := 1, acc := 7 }) = some (2, 11, 9, 111, 16) := by decide
/-- A4: the sum wraps past MAX. -/
theorem test_add_wraps : regs (step { running [(1, 111), (11, 1)] with pc := 1, acc := 2147483647 }) =
    some (2, 11, 1, 111, -2147483648) := by decide
/-- A8: a negative result stays negative. -/
theorem test_sub : regs (step { running [(1, 211), (11, 9)] with pc := 1, acc := 7 }) = some (2, 11, 9, 211, -2) := by decide
/-- A12: `0 - MIN` wraps to MIN. -/
theorem test_sub_wraps : regs (step { running [(1, 211), (11, -2147483648)] with pc := 1, acc := 0 }) =
    some (2, 11, -2147483648, 211, -2147483648) := by decide
/-- L1; and L2, where operand 0 is a real address. -/
theorem test_lda : regs (step (running [(0, 510), (10, -44)])) = some (1, 10, -44, 510, -44) ∧
    regs (step (running [(0, 500)])) = some (1, 0, 500, 500, 500) := by decide
/-- L3: MDR keeps the old cell value. -/
theorem test_sta : regs (step { running [(1, 312), (12, 3)] with pc := 1, acc := 16 }) = some (2, 12, 3, 312, 16) ∧
    stores (step { running [(1, 312), (12, 3)] with pc := 1, acc := 16 }) = some ([(1, 312), (12, 16)], [], []) := by decide
/-- L6: storing 0 over the instruction's own cell leaves memory empty, in canonical form. -/
theorem test_sta_self : stores (step (running [(0, 300)])) = some ([], [], []) := by decide
/-- B2 and K18. -/
theorem test_bra : regs (step { running [(1, 640)] with pc := 1, acc := -1 }) = some (40, 40, 0, 640, -1) ∧
    regs (step (running [(0, 600)])) = some (0, 0, 600, 600, 0) := by decide
/-- B4, B5: taken at 0, not taken at -1. -/
theorem test_brz : regs (step { running [(1, 740)] with pc := 1, acc := 0 }) = some (40, 40, 0, 740, 0) ∧
    regs (step { running [(1, 740)] with pc := 1, acc := -1 }) = some (2, 40, 0, 740, -1) := by decide
/-- B9, B10, B11: taken at 0 and 1, not taken at -1. -/
theorem test_brp : regs (step { running [(1, 840)] with pc := 1, acc := 0 }) = some (40, 40, 0, 840, 0) ∧
    regs (step { running [(1, 840)] with pc := 1, acc := -1 }) = some (2, 40, 0, 840, -1) ∧
    regs (step { running [(1, 840)] with pc := 1, acc := 1 }) = some (40, 40, 0, 840, 1) := by decide
/-- K2 and K4: HLT does not read cell 37, and -1 is a HLT. -/
theorem test_hlt : regs (step (running [(0, 37), (37, 5)])) = some (1, 0, 37, 37, 0) ∧
    control (step (running [(0, -1)])) = some (.halted, .none) := by decide
/-- I1: a negative item; K23: the item is used up. -/
theorem test_inp : regs (step { running [(0, 901)] with input := [.int (-12)] }) = some (1, 0, 901, 901, -12) ∧
    stores (step { running [(0, 901)] with input := [.int 15, .int 4] }) = some ([(0, 901)], [.int 4], []) := by decide
/-- I2: a malformed item loads 0; I3: with no item the machine holds as it was. -/
theorem test_inp_malformed_and_held :
    regs (step { running [(1, 901)] with pc := 1, acc := 77, input := [.malformed] }) = some (2, 1, 901, 901, 0) ∧
    regs (step (running [(0, 901)])) = some (0, 0, 0, 0, 0) := by decide
/-- The example of R154. -/
theorem test_out : regs (step { running [(13, 902)] with pc := 13, acc := 60 }) = some (14, 13, 902, 902, 60) ∧
    stores (step { running [(13, 902)] with pc := 13, acc := 60 }) = some ([(13, 902)], [], [60]) := by decide

-- ==== Fatal conditions (vectors F1 to F7, F9) ====

theorem test_unknown_word : regs (step { running [(3, 450)] with pc := 3, acc := 450 }) = some (4, 3, 450, 450, 450) ∧
    control (step { running [(3, 450)] with pc := 3 }) = some (.halted, .unknownOpcode) := by decide
theorem test_fetch_past_memory :
    regs (step { running [] with pc := 100, mar := 99, mdr := 599, cir := 599, acc := 599 }) = some (101, 100, 599, 599, 599) ∧
    control (step { running [] with pc := 100 }) = some (.halted, .outOfBounds) := by decide
theorem test_operand_past_memory : regs (step (runningIn 50 [(0, 575)])) = some (1, 75, 575, 575, 0) ∧
    control (step (runningIn 50 [(0, 375)])) = some (.halted, .outOfBounds) ∧
    regs (step { runningIn 50 [(0, 875)] with acc := -1 }) = some (1, 75, 875, 875, -1) := by decide
theorem test_hlt_resolves_nothing : control (step (runningIn 50 [(0, 75)])) = some (.halted, .none) := by decide
/-- OVERFLOW_POLICY = fault (D2, U7): A4 is a fatal condition, ACC unwritten, the machine halted with FAULT set. -/
theorem test_overflow_fault :
    regs (step { running [(0, 111), (11, 1)] with acc := 2147483647, cfg := { overflow := .fault } }) =
      some (1, 11, 1, 111, 2147483647) ∧
    control (step { running [(0, 111), (11, 1)] with acc := 2147483647, cfg := { overflow := .fault } }) =
      some (.halted, .overflow) := by decide
/-- MDR_AFTER_STA = acc (D11): MDR after L3 is 16. -/
theorem test_mdr_after_sta_acc :
    regs (step { running [(1, 312), (12, 3)] with pc := 1, acc := 16, cfg := { mdrAfterSta := .acc } }) =
      some (2, 12, 16, 312, 16) := by decide

-- ==== The host (vectors H1 to H6) ====

theorem test_poke : hostPoke 93 1 State.reset = .done { State.reset with mem := [(93, 1)] } ∧
    hostPoke 100 1 State.reset = .refused .addressOutOfBounds ∧ hostPoke (-1) 1 State.reset = .refused .addressOutOfBounds ∧
    hostPoke 0 2147483648 State.reset = .refused .valueOutOfRange := by decide
theorem test_start_refused : hostStart { State.reset with fault := .outOfBounds } = .refused .faultLatched ∧
    hostStart (running []) = .refused .notHalted := by decide
theorem test_reset_keeps_input : hostReset { running [(0, 5)] with acc := 3, input := [.int 1] } =
    { State.reset with input := [.int 1] } := by decide
theorem test_inspect_small : hostInspect { runningIn 2 [(1, 7)] with run := .halted } =
    .done { mem := [0, 7], pc := 0, mar := 0, mdr := 0, cir := 0, acc := 0, run := .halted, fault := .none } := by decide
theorem test_withFetchWord : regs (step (State.reset.withFetchWord 32 594)) = some (1, 94, 0, 594, 0) ∧
    regs (step (State.reset.withFetchWord 32 901)) = some (1, 0, 901, 901, 0) := by decide

-- ==== The assembler and text (vectors S6, T1 to T18; R83, R158) ====

/-- The text of some lines. -/
def text (lines : List String) : List Text := lines.map String.toList

theorem test_assemble_label : assemble Config.default (text ["INP", "top SUB 5", "BRZ top", "BRP top", "BRA top", "HLT"]) =
    .ok [901, 205, 701, 801, 601, 0] := by decide
theorem test_assemble_operands : assemble Config.default (text ["HLT 37", "INP 5", "LDA 94", "ADD", "STA\t94 "]) =
    .ok [37, 901, 594, 100, 394] := by decide
/-- T9, T10, T16b. -/
theorem test_assemble_undefined_label :
    [["BRA nowhere", "HLT"], ["BRA 4", "HLT", "HLT", "HLT", "HLT"], ["INP", "BRA HLT", "HLT"]].map
      (fun p => assemble Config.default (text p)) = List.replicate 3 (.error .undefinedLabel) := by decide
/-- T11, T12, T13. -/
theorem test_assemble_malformed_operand :
    [["LDA x"], ["LDA 150"], ["LDA -1"]].map (fun p => assemble Config.default (text p)) =
      List.replicate 3 (.error .malformedOperand) := by decide
/-- T14, T15, T16, T17. -/
theorem test_assemble_unrecognized :
    [["FOO 5"], ["lda 5"], ["a INP", "b OUT", "BRA a"], ["INP", "", "HLT"]].map (fun p => assemble Config.default (text p)) =
      List.replicate 4 (.error .unrecognizedMnemonic) := by decide
/-- T18, on a machine of two cells. -/
theorem test_assemble_too_long : assemble { cells := 2 } (text ["HLT", "HLT", "HLT"]) = .error .outOfBounds := by decide
theorem test_disassemble : [594, 804, 600, 901, 0, 450].map disassemble =
    [some "LDA 94".toList, some "BRP 4".toList, some "BRA 0".toList, some "INP".toList, some "HLT".toList, none] := by decide
theorem test_input_lines :
    ["15", " -12\t", "+7", "", "x", "1x", "-", "2147483648"].map (fun l => readInputLine Config.default l.toList) =
      [.int 15, .int (-12), .int 7, .malformed, .malformed, .malformed, .malformed, .malformed] := by decide
/-- P1 brought up as R210 says, up to the moment its first instruction runs. -/
theorem test_bringUp :
    State.afterAll (bringUp (text ["INP", "loop OUT", "SUB 7", "BRP loop", "HLT"]) [(7, 1)] [.int 2]) State.reset =
      { running [(0, 901), (1, 902), (2, 207), (3, 801), (7, 1)] with input := [.int 2] } := by decide

-- ==== Bits (00_scope.md R8) ====

theorem test_bits : bitSlice (-1) 7 4 = 15 ∧ zeroExtend 8 (-1) = 255 ∧ signExtend 8 255 = -1 ∧ wordOfBits 32 4294967295 = -1 := by
  decide

-- ==== The sequencer (R111, R153) ====

theorem test_sequencer_waits :
    (match ticks 2 (Sequencer.between (running [(0, 901)])) with
     | .next q => decide (q.phase = .execute ∧ q.core.pc = 1 ∧ q.core.cir = 901 ∧ q.core.run = .running)
     | .fault _ => false
     | .refused _ => false) = true := by decide

-- ==== Witnesses: the hypotheses of each statement are met, each clause at an edge of its range ====

/-- A HLT, a word of each packed operation and both sentinels, each well formed. -/
theorem witness_DecodeOfEncodeIsTheInstruction :
    [Instr.hlt (-99), .hlt 99, .add 0, .sub 99, .sta 0, .lda 99, .bra 0, .brz 99, .brp 99, .inp, .out].all
      Instr.wellFormed = true := by decide
theorem witness_EncodeOfDecodeIsTheWord : decode 199 = .instr (.add 99) ∧ Instr.operand (.add 99) = some 99 := by decide
theorem witness_TdivRoundsTowardZero : (0 : Int) < 100 ∧ (0 : Int) ≤ 0 ∧ (-1 : Int) < 0 := by decide
theorem witness_WrapIsTheOneCongruentWord : 1 ≤ Config.default.width ∧ Config.default.InRange (-2147483648) ∧
    ((2 ^ Config.default.width : Nat) : Int) ∣ -2147483648 - 2147483648 := by decide
theorem witness_EncodedPairsSplitBack : packedOpcode .brp = some 8 ∧ decodeOp 899 ≠ .unknown ∧ decodeOp 899 ≠ .hlt := by decide
theorem witness_CanonicalMemoriesWithEqualReadsAreEqual : Memory.wf [(0, 901), (99, -7)] = true := by decide
theorem witness_ResetSetsEveryFieldButInput : State.reset.cfg.resetRegs = .zero ∧
    ({ resetRegs := .given 1 2 3 4 } : Config).resetRegs = .given 1 2 3 4 := by decide

theorem witness_StepRunsTheDecodedInstruction :
    (running [(0, 594)]).run = .running ∧ memRead (running [(0, 594)]) 0 = some 594 ∧ decode 594 = .instr (.lda 94) ∧
    ¬ (Instr.lda 94 = .inp ∧ (running [(0, 594)]).input = []) := by decide
theorem witness_UnrecognisedWordRaisesUnknownOpcode :
    (running [(0, 400)]).AtWord 400 ∧ (running [(0, 900)]).AtWord 900 ∧ (running [(0, 903)]).AtWord 903 ∧
    (running [(0, -100)]).AtWord (-100) := by decide
theorem witness_FetchOutsideMemoryRaisesOutOfBounds :
    (running []).run = .running ∧ (((running []).cfg.cells : Int) ≤ ({ running [] with pc := 100 } : State).pc) := by decide
theorem witness_HaltedMachineChangesNothing : State.reset.run = .halted := by decide
theorem witness_WaitingInpHoldsUntilAnItemArrives :
    (running [(0, 901)]).AtWord 901 ∧ (running [(0, 901)]).input = [] ∧ (running [(0, 901)]).cfg.InRange (-2147483648) := by
  decide
theorem witness_EveryCycleAnswers : (running []).fault ≠ .overflow ∧
    (let s : State := { running [(0, 199), (99, 1)] with acc := 2147483647, cfg := { overflow := .fault } }
     s.cfg.overflow = .fault ∧ 99 < s.cfg.cells ∧ s.AtWord (100 + (99 : Nat)) ∧ ¬ s.cfg.InRange (s.acc + s.mem.read 99)) := by
  decide

theorem witness_AddCycle : (running [(0, 199)]).AtWord (100 + (99 : Nat)) ∧ (running [(0, 199)]).cfg.overflow = .wrap ∧
    99 < (running [(0, 199)]).cfg.cells ∧ (runningIn 99 [(0, 199)]).AtWord (100 + (99 : Nat)) ∧
    (runningIn 99 [(0, 199)]).cfg.cells ≤ 99 := by decide
theorem witness_SubCycle : (running [(0, 299)]).AtWord (200 + (99 : Nat)) ∧ (running [(0, 299)]).cfg.overflow = .wrap ∧
    (runningIn 99 [(0, 299)]).AtWord (200 + (99 : Nat)) ∧ (runningIn 99 [(0, 299)]).cfg.cells ≤ 99 := by decide
theorem witness_LdaCycle : (running [(0, 500)]).AtWord (500 + (0 : Nat)) ∧ 0 < (running [(0, 500)]).cfg.cells ∧
    (runningIn 99 [(0, 599)]).AtWord (500 + (99 : Nat)) ∧ (runningIn 99 [(0, 599)]).cfg.cells ≤ 99 := by decide
theorem witness_StaCycle : (running [(0, 399)]).AtWord (300 + (99 : Nat)) ∧ Memory.wf (running [(0, 399)]).mem = true ∧
    99 < (running [(0, 399)]).cfg.cells ∧ (runningIn 99 [(0, 399)]).AtWord (300 + (99 : Nat)) ∧
    (runningIn 99 [(0, 399)]).cfg.cells ≤ 99 := by decide
theorem witness_BraCycle : (running [(0, 699)]).AtWord (600 + (99 : Nat)) ∧ 99 < (running [(0, 699)]).cfg.cells ∧
    (runningIn 99 [(0, 699)]).AtWord (600 + (99 : Nat)) ∧ (runningIn 99 [(0, 699)]).cfg.cells ≤ 99 := by decide
theorem witness_BrzCycle : (running [(0, 700)]).AtWord (700 + (0 : Nat)) ∧ (running [(0, 700)]).acc = 0 ∧
    (runningIn 99 [(0, 799)]).AtWord (700 + (99 : Nat)) ∧ (runningIn 99 [(0, 799)]).cfg.cells ≤ 99 := by decide
theorem witness_BrpCycle : (running [(0, 800)]).AtWord (800 + (0 : Nat)) ∧ 0 ≤ (running [(0, 800)]).acc ∧
    (runningIn 99 [(0, 899)]).AtWord (800 + (99 : Nat)) ∧ (runningIn 99 [(0, 899)]).cfg.cells ≤ 99 := by decide
theorem witness_OperandFaultStopsTheCycle : packedOpcode .sta = some 3 ∧ (runningIn 99 [(0, 399)]).AtWord (3 * 100 + (99 : Nat)) ∧
    (runningIn 99 [(0, 399)]).cfg.cells ≤ 99 := by decide
theorem witness_OpIsNeverStale : (running [(0, 450)]).AtWord 450 ∧ ¬ (running [(0, 450)]).Waits ∧
    control (step (running [(0, 450)])) = some (.halted, .unknownOpcode) := by decide
theorem witness_HltCycle : (running []).AtWord 0 ∧ (running [(0, 99)]).AtWord 99 ∧ (running [(0, -99)]).AtWord (-99) := by decide
theorem witness_InpCycle :
    ({ running [(0, 901)] with input := [.int 15, .int 4] } : State).AtWord 901 ∧
    ({ running [(0, 901)] with input := [.malformed] } : State).AtWord 901 := by decide
theorem witness_OutCycle : (running [(0, 902)]).AtWord 902 := by decide

theorem witness_ExecArithmeticCompletes : 99 < State.reset.cfg.cells ∧ State.reset.cfg.overflow = .wrap := by decide
theorem witness_ExecLoadStoreCompletes : 99 < State.reset.cfg.cells := by decide
theorem witness_ExecBranchesComplete : 0 < (runningIn 1 []).cfg.cells := by decide
theorem witness_ExecSystemCompletes : ({ State.reset with input := [.malformed] } : State).input = .malformed :: [] := by decide
theorem witness_OperandOutsideMemoryRaisesOutOfBounds : (Instr.brp 99).operand = some 99 ∧ (runningIn 99 []).cfg.cells ≤ 99 := by
  decide
theorem witness_OverflowPolicyFaultStopsOnlyOnOverflow :
    let s : State := { running [(99, 1)] with acc := 2147483647, cfg := { overflow := .fault } }
    99 < s.cfg.cells ∧ s.cfg.overflow = .fault ∧ ¬ s.cfg.InRange (s.acc + s.mem.read 99) ∧
    s.cfg.InRange (s.acc - s.mem.read 99) := by decide
/-- Every instruction has a next state somewhere, so the frames speak of something: one state and operand for each. -/
theorem witness_ExecWritesOnlyWhatTheMatrixNames :
    [Instr.hlt 0, .add 1, .sub 1, .sta 1, .lda 1, .bra 1, .brz 1, .brp 1, .inp, .out].all
      (fun i => (regs (exec i { running [(1, 5)] with input := [.int 3] })).isSome) = true ∧
    control (exec (.add 1) (runningIn 1 [])) = some (.halted, .outOfBounds) := by decide
theorem witness_OnlyStaWritesMemory : (Instr.lda 0).op ≠ .sta ∧ exec .out (running [(1, 5)]) =
    .next { running [(1, 5)] with output := [0] } := ⟨by decide, rfl⟩
theorem witness_StaWritesItsCellOnly : Memory.wf (running [(1, 5)]).mem = true ∧
    stores (exec (.sta 99) { running [(1, 5)] with acc := -7 }) = some ([(1, 5), (99, -7)], [], []) := by decide

theorem witness_OnlyInpAndOutTouchTheOutside :
    stores (step { running [(0, 901)] with input := [.int 3] }) = some ([(0, 901)], [], []) ∧
    stores (step (running [(0, 902)])) = some ([(0, 902)], [], [0]) := by decide
theorem witness_OnlyHltOrAFatalConditionHalts :
    control (step (running [])) = some (.halted, .none) ∧ control (step (running [(0, 499)])) = some (.halted, .unknownOpcode) ∧
    control (step { running [] with pc := 100 }) = some (.halted, .outOfBounds) ∧
    control (step { running [(0, 299), (99, -1)] with acc := 2147483647, cfg := { overflow := .fault } }) =
      some (.halted, .overflow) := by decide
theorem witness_StoredWordIsTheNextFetched :
    let s : State := { running [(98, 399)] with pc := 98, acc := 902 }
    s.AtWord (300 + (99 : Nat)) ∧ ((99 : Nat) : Int) = s.pc + 1 ∧ 99 < s.cfg.cells ∧ Memory.wf s.mem = true := by decide
theorem witness_AddThenSubRestoresAcc :
    let s : State := { running [(51, 1)] with acc := 2147483647 }
    1 ≤ s.cfg.width ∧ s.cfg.overflow = .wrap ∧ s.cfg.InRange s.acc ∧ 51 < s.cfg.cells ∧
    regs (exec (.add 51) s) = some (0, 51, 1, 0, -2147483648) := by decide
theorem witness_OldMarMdrCirOpInfluenceNothing :
    let s : State := { running [(99, 594)] with pc := 99 }
    s.run = .running ∧ 0 ≤ s.pc ∧ s.pc < s.cfg.cells ∧ ¬ (s.AtWord 901 ∧ s.input = []) := by decide

theorem witness_ResetStatesAreWellFormed :
    ({ cells := 1, width := 11 } : Config).Legal ∧ ({ cells := 1022, width := 11 } : Config).Legal ∧
    ({ resetRegs := .given (-1) 5 450 7 } : Config).Legal ∧ InputItem.Fits Config.default (.int 2147483647) := by decide
theorem witness_StepKeepsWellFormed : (running [(0, 594), (94, -3)]).Wf ∧
    regs (step (running [(0, 594), (94, -3)])) = some (1, 94, -3, 594, -3) := by decide
/-- A machine about to fetch past its last cell, and the same machine stopped by that fetch. -/
def atEndOfMemory : State := { State.reset with run := .running, pc := 100 }
def pastEndOfMemory : State := { State.reset with pc := 101, mar := 100, fault := .outOfBounds }
theorem witness_StepKeepsWellFormed_end_of_memory :
    atEndOfMemory.Wf ∧ pastEndOfMemory.Wf ∧ step atEndOfMemory = .next pastEndOfMemory := ⟨by decide, by decide, rfl⟩
theorem witness_EveryEventKeepsWellFormed : ({ State.reset with input := [.malformed], output := [-1] } : State).Wf := by decide
theorem witness_PcStaysInMemoryFromReset :
    ({ cells := 1 } : Config).Legal ∧
    (let s := State.afterAll [.poke 0 902, .start, .cycle, .cycle] (State.initial { cells := 1 } [])
     s.pc = 2 ∧ s.mar = 1 ∧ s.fault = .outOfBounds) := by decide
theorem witness_MarNamesACellUnlessOutOfBounds :
    ({ cells := 1 } : Config).Legal ∧ ({ cells := 1 } : Config).resetRegs = .zero ∧
    (State.afterAll [.poke 0 902, .start, .cycle] (State.initial { cells := 1 } [])).fault ≠ .outOfBounds := by decide
theorem witness_FaultStaysUntilReset :
    let s : State := { State.reset with fault := .unknownOpcode, cir := 450 }
    s.run = .halted ∧ s.fault ≠ .none ∧ Event.reset ∉ [Event.start, .poke 0 1, .cycle] := by decide

theorem witness_HostIsShutOutWhileRunning : (running []).run = .running := by decide
theorem witness_StartSetsRunOnly : State.reset.run = .halted ∧ State.reset.fault = .none ∧
    ({ State.reset with fault := .outOfBounds } : State).fault ≠ .none := by decide
theorem witness_PokeWritesOneCell : State.reset.run = .halted ∧ Memory.wf State.reset.mem = true ∧
    (99 : Int) < State.reset.cfg.cells ∧ State.reset.cfg.InRange 2147483647 ∧ ¬ State.reset.cfg.InRange 2147483648 ∧
    (State.reset.cfg.cells : Int) ≤ 100 := by decide
theorem witness_AssembleWritesCellsFromZero : State.reset.run = .halted ∧
    assemble State.reset.cfg (text ["INP", "HLT"]) = .ok [901, 0] ∧
    assemble State.reset.cfg (text ["FOO"]) = .error .unrecognizedMnemonic := by decide
theorem witness_AssembledWordsAreInstructions : assemble { cells := 1 } (text ["LDA 99"]) = .ok [599] := by decide
theorem witness_WrittenInstructionAssemblesBack : 1 ≤ ({ cells := 1 } : Config).cells ∧ decodeOp 100 = .add ∧ decodeOp 299 = .sub ∧
    decodeOp 300 = .sta ∧ decodeOp 599 = .lda := by decide
theorem witness_EmptyMachineHaltsAtOnce : 1 ≤ ({ cells := 1 } : Config).cells := by decide
theorem witness_PlacedWordRunsNext : 1 ≤ State.reset.cfg.cells ∧ Memory.wf State.reset.mem = true ∧
    decode (wordOfBits State.reset.cfg.width 901) = .instr .inp := by decide
theorem witness_SequencerRefinesTheStep :
    (running [(0, 594)]).run = .running ∧ ¬ ((running [(0, 594)]).AtWord 901 ∧ (running [(0, 594)]).input = []) ∧
    regs (step (running [(0, 594)])) = some (1, 94, 0, 594, 0) := by decide
theorem witness_SequencerShowsTheWaitingInp : (running [(0, 901)]).AtWord 901 ∧ (running [(0, 901)]).input = [] := by decide
theorem witness_SequencerPhaseAgreesWithRun : State.reset.run = .halted ∧ State.reset.fault = .none ∧
    ({ State.reset with fault := .overflow } : State).fault ≠ .none ∧
    ((Sequencer.between State.reset).phase = .halted ↔ (Sequencer.between State.reset).core.run = .halted) ∧
    (Sequencer.after .start (Sequencer.between State.reset)).phase = .fetch := by decide

-- ==== The input channel as an argument (R34) ====

/-- Endless sevens: the second INP of a machine takes another one. -/
theorem test_fed_infinite :
    (match Fed.run (.infinite (fun _ => .int 7)) 2 ⟨running [(0, 901), (1, 901)], 0⟩ with
     | .next m => decide (m.taken = 2 ∧ m.core.acc = 7 ∧ m.core.pc = 2 ∧ m.core.run = .running)
     | .fault _ => false
     | .refused _ => false) = true := by decide
/-- One item: the second INP waits (P3's row for IN = [15]). -/
theorem test_fed_finite_waits :
    (match Fed.run (.finite [.int 15]) 3 ⟨running [(0, 901), (1, 901)], 0⟩ with
     | .next m => decide (m.taken = 1 ∧ m.core.acc = 15 ∧ m.core.pc = 1 ∧ m.core.run = .running)
     | .fault _ => false
     | .refused _ => false) = true := by decide
theorem witness_InputSequenceDrivesTheStep : (running [(0, 901)]).AtWord 901 ∧ (running [(0, 901)]).input = [] ∧
    ([] : List InputItem).length ≤ 0 := by decide

end Sys2Proof.Tests
end

/-! Proofs. The arithmetic of 00_scope.md R9 and R10, tied to the library's truncated division and balanced remainder. -/

namespace Sys2Proof

/-- The machine's quotient is the library's truncated division. -/
theorem tdiv_eq (a b : Int) : tdiv a b = a.tdiv b := by
  unfold tdiv
  split
  · next ha => exact (Int.tdiv_eq_ediv_of_nonneg ha).symm
  · next ha => rw [← Int.tdiv_eq_ediv_of_nonneg (by omega), Int.neg_tdiv, neg_neg]

/-- The machine's remainder is the library's truncated remainder. -/
theorem tmod_eq (a b : Int) : tmod a b = a.tmod b := by
  rw [tmod, tdiv_eq, Int.tmod_def]

theorem tmod_nonneg {a : Int} (b : Int) (ha : 0 ≤ a) : 0 ≤ tmod a b :=
  tmod_eq a b ▸ Int.tmod_nonneg b ha

theorem tmod_nonpos {a : Int} (b : Int) (ha : a ≤ 0) : tmod a b ≤ 0 := by
  have hneg : 0 ≤ (-a).tmod b := Int.tmod_nonneg b (by omega)
  rw [Int.neg_tmod] at hneg
  rw [tmod_eq]
  omega

theorem tmod_lt (a : Int) {b : Int} (hb : 0 < b) : tmod a b < b :=
  tmod_eq a b ▸ Int.tmod_lt_of_pos a hb

theorem neg_lt_tmod (a : Int) {b : Int} (hb : 0 < b) : -b < tmod a b :=
  tmod_eq a b ▸ Int.lt_tmod_of_pos a hb

/-- Settles O1: the product `b * tdiv a b` is `a` less the remainder, whose sign and size the library gives. -/
theorem tdivRoundsTowardZero : Obligations.TdivRoundsTowardZero := by
  intro a b hb
  have hdef : tmod a b = a - b * tdiv a b := rfl
  have hlt : tmod a b < b := tmod_lt a hb
  have hgt : -b < tmod a b := neg_lt_tmod a hb
  refine ⟨fun ha => ?_, fun ha => ?_, hdef, tmod_nonneg b, tmod_nonpos b, hgt, hlt⟩
  · have hsign : 0 ≤ tmod a b := tmod_nonneg b ha
    rw [mul_add]
    omega
  · have hsign : tmod a b ≤ 0 := tmod_nonpos b ha.le
    rw [mul_sub]
    omega

/-- The words are the balanced remainders modulo `2^W`. -/
theorem Config.inRange_iff {c : Config} (hw : 1 ≤ c.width) (v : Int) :
    c.InRange v ↔ -(((2 ^ c.width : Nat) : Int) / 2) ≤ v ∧ v < (((2 ^ c.width : Nat) : Int) + 1) / 2 := by
  obtain ⟨k, hk⟩ : ∃ k, c.width = k + 1 := ⟨c.width - 1, by omega⟩
  simp only [Config.InRange, Config.minWord, Config.maxWord, hk, Nat.add_sub_cancel, Nat.pow_succ]
  omega

/-- `wrap_W(x)` is the one word congruent to `x` (00_scope.md R9). -/
theorem Machine.wrap_eq_iff {c : Config} (hw : 1 ≤ c.width) (x y : Int) :
    Machine.wrap c x = y ↔ c.InRange y ∧ ((2 ^ c.width : Nat) : Int) ∣ y - x := by
  rw [Machine.wrap, Int.bmod_eq_iff (Nat.two_pow_pos c.width), Config.inRange_iff hw, and_assoc]

theorem Machine.inRange_wrap {c : Config} (hw : 1 ≤ c.width) (x : Int) : c.InRange (Machine.wrap c x) :=
  ((Machine.wrap_eq_iff hw x _).1 rfl).1

theorem Machine.wrap_of_inRange {c : Config} (hw : 1 ≤ c.width) {x : Int} (hx : c.InRange x) : Machine.wrap c x = x :=
  (Machine.wrap_eq_iff hw x x).2 ⟨hx, by simp⟩

/-- Settles O2: a word is a balanced remainder modulo `2^W`, and the library's balanced remainder is unique. -/
theorem wrapIsTheOneCongruentWord : Obligations.WrapIsTheOneCongruentWord := by
  intro c x y hw
  exact ⟨(Machine.wrap_eq_iff hw x y).symm.trans eq_comm, Machine.wrap_of_inRange hw⟩

end Sys2Proof

/-! Proofs. The decoder's map by ranges (30_encoding.md R76): what the quotient by 100 says of a word, then which quotients and
sentinels choose each operation. -/

namespace Sys2Proof

theorem tdiv_hundred_eq_zero_iff (w : Int) : tdiv w 100 = 0 ↔ -99 ≤ w ∧ w ≤ 99 := by
  unfold tdiv
  split <;> omega

/-- Away from zero a quotient has one hundred words. -/
theorem tdiv_hundred_eq_iff {q : Int} (hq : 1 ≤ q) (w : Int) : tdiv w 100 = q ↔ 100 * q ≤ w ∧ w ≤ 100 * q + 99 := by
  unfold tdiv
  split <;> omega

/-- The operand field is two decimal digits, whatever the word (30_encoding.md R72). -/
theorem operandField_le (w : Int) : operandField w ≤ 99 := by
  have hlt : tmod w 100 < 100 := tmod_lt w (by decide)
  unfold operandField
  omega

theorem packedOpcode_le {op : Op} {c : Int} (h : packedOpcode op = some c) : c ≤ 8 := by
  cases op <;> simp [packedOpcode, opcodeTable] at h <;> omega

/-- The table read by opcode agrees with the table read by operation. -/
theorem opOfQuotient_eq_iff {op : Op} {c : Int} (h : packedOpcode op = some c) (q : Int) :
    opOfQuotient q = op ↔ q = c := by
  rw [opOfQuotient_eq]
  cases op <;> simp [packedOpcode, opcodeTable] at h <;> subst h <;> grind

theorem opOfQuotient_eq_unknown_iff (q : Int) : opOfQuotient q = .unknown ↔ q < 0 ∨ q = 4 ∨ 9 ≤ q := by
  rw [opOfQuotient_eq]
  grind

/-- An operation of the packed table is chosen by its quotient alone: no sentinel has one of those quotients. -/
theorem decodeOp_eq_iff_tdiv {op : Op} {c : Int} (h : packedOpcode op = some c) (w : Int) :
    decodeOp w = op ↔ tdiv w 100 = c := by
  have hc : c ≤ 8 := packedOpcode_le h
  by_cases hs : w = 901 ∨ w = 902
  · have hq : tdiv w 100 = 9 := (tdiv_hundred_eq_iff (by decide) w).2 (by omega)
    have hop : decodeOp w ≠ op := by
      rintro rfl
      rcases hs with rfl | rfl <;> cases h
    exact iff_of_false hop (by omega)
  · rw [not_or] at hs
    rw [decodeOp_ofQuotient hs.1 hs.2, opOfQuotient_eq_iff h]

/-- The hundred words of an operation with an opcode above 0. -/
theorem decodeOp_eq_iff_hundred {op : Op} {c : Int} (h : packedOpcode op = some c) (hc : 1 ≤ c) (w : Int) :
    decodeOp w = op ↔ 100 * c ≤ w ∧ w ≤ 100 * c + 99 := by
  rw [decodeOp_eq_iff_tdiv h, tdiv_hundred_eq_iff hc]

theorem decodeOp_eq_hlt_iff (w : Int) : decodeOp w = .hlt ↔ -99 ≤ w ∧ w ≤ 99 := by
  rw [decodeOp_eq_iff_tdiv (c := 0) rfl, tdiv_hundred_eq_zero_iff]

theorem opOfQuotient_ne_sentinel (q : Int) : opOfQuotient q ≠ .inp ∧ opOfQuotient q ≠ .out := by
  rw [opOfQuotient_eq]
  grind

theorem decodeOp_eq_inp_iff (w : Int) : decodeOp w = .inp ↔ w = 901 := by
  obtain ⟨hinp, -⟩ := opOfQuotient_ne_sentinel (tdiv w 100)
  rw [decodeOp_eq]
  split_ifs <;> simp [*]

theorem decodeOp_eq_out_iff (w : Int) : decodeOp w = .out ↔ w = 902 := by
  obtain ⟨-, hout⟩ := opOfQuotient_ne_sentinel (tdiv w 100)
  rw [decodeOp_eq]
  split_ifs <;> simp [*]

/-- The reserved words: a quotient outside the table, and no sentinel (30_encoding.md R77). -/
theorem decodeOp_eq_unknown_iff (w : Int) :
    decodeOp w = .unknown ↔ w ≤ -100 ∨ (400 ≤ w ∧ w ≤ 499) ∨ w = 900 ∨ 903 ≤ w := by
  by_cases h1 : w = 901
  · subst h1
    decide
  by_cases h2 : w = 902
  · subst h2
    decide
  rw [decodeOp_ofQuotient h1 h2, opOfQuotient_eq_unknown_iff]
  unfold tdiv
  split <;> omega

/-- Settles O4: each packed operation has the hundred words of its opcode, HLT the 199 words around zero, and the sentinels
and reserved words are the rest. -/
theorem eachOperationHasItsWords : Obligations.EachOperationHasItsWords := fun w =>
  ⟨decodeOp_eq_hlt_iff w,
    decodeOp_eq_iff_hundred (c := 1) rfl (by decide) w,
    decodeOp_eq_iff_hundred (c := 2) rfl (by decide) w,
    decodeOp_eq_iff_hundred (c := 3) rfl (by decide) w,
    decodeOp_eq_iff_hundred (c := 5) rfl (by decide) w,
    decodeOp_eq_iff_hundred (c := 6) rfl (by decide) w,
    decodeOp_eq_iff_hundred (c := 7) rfl (by decide) w,
    decodeOp_eq_iff_hundred (c := 8) rfl (by decide) w,
    decodeOp_eq_inp_iff w, decodeOp_eq_out_iff w, decodeOp_eq_unknown_iff w⟩

end Sys2Proof

/-! Proofs. The invariant `State.Wf` under a step. A cycle is followed through the states in the middle of it,
`State.MidCycle`: every phase keeps that predicate, and a cycle that ends or stops in such a state ends in a well-formed one. -/

namespace Sys2Proof

theorem Config.minWord_eq (c : Config) : c.minWord = -c.maxWord - 1 := by
  unfold Config.minWord Config.maxWord
  omega

/-- A word has at least 11 bits (00_scope.md R6). -/
theorem Config.Legal.maxWord_ge {c : Config} (h : c.Legal) : 1023 ≤ c.maxWord := by
  obtain ⟨hwidth, -⟩ := h
  have hpow : 2 ^ 10 ≤ 2 ^ (c.width - 1) := Nat.pow_le_pow_right (by decide) (by omega)
  unfold Config.maxWord
  omega

/-- PC and MAR hold every address up to `N + 1` (00_scope.md R6). -/
theorem Config.Legal.inRange_address {c : Config} (h : c.Legal) {a : Int} (h0 : 0 ≤ a) (ha : a ≤ c.cells + 1) :
    c.InRange a := by
  have hmin := c.minWord_eq
  have hmax := h.maxWord_ge
  obtain ⟨-, -, hcells, -⟩ := h
  constructor <;> omega

theorem Config.Legal.inRange_zero {c : Config} (h : c.Legal) : c.InRange 0 :=
  h.inRange_address le_rfl (by omega)

/-- MAR holds every operand field, in memory or not. -/
theorem Config.Legal.inRange_operand {c : Config} (h : c.Legal) {t : Nat} (ht : t ≤ 99) : c.InRange (t : Int) := by
  have hmin := c.minWord_eq
  have hmax := h.maxWord_ge
  constructor <;> omega

/-- The operand of a decoded instruction is two decimal digits (30_encoding.md R72). -/
theorem decode_instr_operand_le {w : Int} {i : Instr} (h : decode w = .instr i) {t : Nat} (ht : i.operand = some t) :
    t ≤ 99 := by
  rw [decode_instr_operand h] at ht
  split at ht
  · exact Option.some.inj ht ▸ operandField_le w
  · cases ht

namespace Machine

/-- A cell of a memory that fits reads as a word: a listed one by the invariant, an unlisted one as 0. -/
theorem Memory.inRange_read {c : Config} (h0 : c.InRange 0) {m : Memory} (hm : ∀ cell ∈ m, c.InRange cell.2) (a : Nat) :
    c.InRange (m.read a) := by
  induction m with
  | nil => exact h0
  | cons cell m ih =>
    rw [Memory.read_cons]
    split
    · exact hm cell (by simp)
    · exact ih fun x hx => hm x (by simp [hx])

/-- What INP takes from the channel is a word. -/
theorem InputItem.Fits.inRange_value {c : Config} (h0 : c.InRange 0) {item : InputItem} (h : item.Fits c) :
    c.InRange item.value := by
  cases item with
  | malformed => exact h0
  | int v =>
    show c.InRange v
    by_contra hv
    rw [InputItem.Fits, InputItem.fitted, if_neg hv] at h
    cases h

theorem Fatal.latch_eq_overflow {x : Fatal} : x.latch = .overflow ↔ x = .overflow := by
  cases x <;> decide

/-- What the invariant says of a machine in the middle of a cycle, its fetch done and no fatal condition raised. -/
structure State.MidCycle (s : State) : Prop where
  legal : s.cfg.Legal
  mem : Memory.Fits s.cfg s.mem
  pc_nonneg : 0 ≤ s.pc
  pc_le : s.pc ≤ s.cfg.cells
  mar : s.cfg.InRange s.mar
  mdr : s.cfg.InRange s.mdr
  cir : s.cfg.InRange s.cir
  acc : s.cfg.InRange s.acc
  noFault : s.fault = .none
  input : ∀ item ∈ s.input, item.Fits s.cfg
  output : ∀ v ∈ s.output, s.cfg.InRange v

namespace State.MidCycle

variable {s s' : State}

theorem inRange_read (h : s.MidCycle) (a : Nat) : s.cfg.InRange (s.mem.read a) :=
  Memory.inRange_read h.legal.inRange_zero (fun cell hc => (h.mem.2 cell hc).2) a

theorem noOverflow (h : s.MidCycle) : s.fault ≠ .overflow := by
  simp [h.noFault]

/-- A cycle that raises nothing ends in a well-formed state. -/
theorem wf (h : s.MidCycle) : s.Wf :=
  ⟨h.legal, h.mem, .inl ⟨h.pc_nonneg, h.pc_le⟩, h.legal.inRange_address h.pc_nonneg (by have := h.pc_le; omega),
    h.mar, h.mdr, h.cir, h.acc, fun _ => h.noFault, fun hf => absurd hf h.noOverflow, h.input, h.output⟩

/-- Halting, with FAULT left alone or set, is the end of a cycle: the latch of an overflow needs the policy `fault`. -/
theorem halted_wf (h : s.MidCycle) {f : FaultLatch} (hf : f = .overflow → s.cfg.overflow = .fault) :
    ({ s with run := .halted, fault := f } : State).Wf := by
  obtain ⟨hlegal, hmem, hpc, hpcRange, hmar, hmdr, hcir, hacc, -, -, hin, hout⟩ := h.wf
  exact ⟨hlegal, hmem, .inl ⟨h.pc_nonneg, h.pc_le⟩, hpcRange, hmar, hmdr, hcir, hacc, nofun, hf, hin, hout⟩

theorem raise_wf (h : s.MidCycle) {x : Fatal} (hx : x = .overflow → s.cfg.overflow = .fault) : (raise x s).Wf :=
  h.halted_wf (f := x.latch) fun hf => hx (Fatal.latch_eq_overflow.1 hf)

/-- Operand resolution inside memory. -/
theorem resolved (h : s.MidCycle) {t : Nat} (ht : t < s.cfg.cells) :
    ({ s with mar := (t : Int), mdr := s.mem.read t } : State).MidCycle :=
  { h with mar := h.legal.inRange_address (Int.natCast_nonneg t) (show (t : Int) ≤ _ by omega), mdr := h.inRange_read t }

/-- Operand resolution outside memory stops the machine, with the operand field in MAR. -/
theorem operandFault_wf (h : s.MidCycle) {t : Nat} (ht : t ≤ 99) : (s.operandFault t).Wf :=
  have hmar : ({ s with mar := (t : Int) } : State).MidCycle := { h with mar := h.legal.inRange_operand ht }
  hmar.halted_wf nofun

/-- ADD and SUB write a word to ACC under either policy, or stop on the overflow. -/
theorem accumulate_wf (h : s.MidCycle) {exact : Int} (hs : accumulate exact s = .next s') : s'.Wf := by
  rcases accumulate_cases exact s with ⟨hfits, ha⟩ | ⟨hpolicy, -, ha⟩ <;>
    obtain rfl := Host.Outcome.next.inj (ha.symm.trans hs)
  · refine MidCycle.wf { h with acc := ?_ }
    have hwidth : 1 ≤ s.cfg.width := by have := h.legal.1; omega
    show s.cfg.InRange (if s.cfg.overflow = .wrap then wrap s.cfg exact else exact)
    cases hp : s.cfg.overflow with
    | wrap => exact inRange_wrap hwidth exact
    | fault => exact hfits hp
  · exact h.raise_wf fun _ => hpolicy

/-- A branch to a cell of memory, taken or not. -/
theorem branch_wf (h : s.MidCycle) {t : Nat} (ht : t < s.cfg.cells) (p : Prop) [Decidable p] :
    ({ s with mar := (t : Int), mdr := s.mem.read t, pc := if p then (t : Int) else s.pc } : State).Wf := by
  refine MidCycle.wf { h.resolved ht with pc_nonneg := ?_, pc_le := ?_ }
  · show 0 ≤ if p then (t : Int) else s.pc
    split
    · omega
    · exact h.pc_nonneg
  · show (if p then (t : Int) else s.pc) ≤ s.cfg.cells
    split
    · omega
    · exact h.pc_le

/-- INP takes one item, the rest stays in the channel. -/
theorem take_wf (h : s.MidCycle) {item : InputItem} {rest : List InputItem} (hin : s.input = item :: rest) :
    ({ s with acc := item.value, input := rest } : State).Wf := by
  have hall := h.input
  rw [hin, List.forall_mem_cons] at hall
  exact MidCycle.wf { h with
    acc := InputItem.Fits.inRange_value h.legal.inRange_zero hall.1
    input := hall.2 }

/-- OUT appends ACC, a word. -/
theorem put_wf (h : s.MidCycle) : ({ s with output := s.output ++ [s.acc] } : State).Wf :=
  MidCycle.wf { h with output := List.forall_mem_append.2 ⟨h.output, by simpa using h.acc⟩ }

/-- STA writes ACC, a word, to a cell of memory, under either value of the MDR switch. -/
theorem store_wf (h : s.MidCycle) {t : Nat} (ht : t < s.cfg.cells) :
    ({ s with
       mar := (t : Int), mem := s.mem.write t s.acc,
       mdr := if s.cfg.mdrAfterSta = .old then s.mem.read t else s.acc } : State).Wf := by
  refine MidCycle.wf { h.resolved ht with mem := Memory.fits_write h.mem ht h.acc, mdr := ?_ }
  show s.cfg.InRange (if s.cfg.mdrAfterSta = .old then s.mem.read t else s.acc)
  split
  · exact h.inRange_read t
  · exact h.acc

/-- The effect of each instruction ends a cycle well formed. -/
theorem effect_wf (h : s.MidCycle) {i : Instr} (hi : ∀ t, i.operand = some t → t < s.cfg.cells) (he : Effect i s s') :
    s'.Wf := by
  cases i with
  | hlt _ =>
    obtain rfl : s' = _ := he
    exact h.halted_wf fun hf => absurd hf h.noOverflow
  | add t => exact (h.resolved (hi t rfl)).accumulate_wf he
  | sub t => exact (h.resolved (hi t rfl)).accumulate_wf he
  | sta t =>
    obtain rfl : s' = _ := he
    exact h.store_wf (hi t rfl)
  | lda t =>
    obtain rfl : s' = _ := he
    exact MidCycle.wf { h.resolved (hi t rfl) with acc := h.inRange_read t }
  | bra t =>
    obtain rfl : s' = _ := he
    exact h.branch_wf (hi t rfl) True
  | brz t =>
    obtain rfl : s' = _ := he
    exact h.branch_wf (hi t rfl) (s.acc = 0)
  | brp t =>
    obtain rfl : s' = _ := he
    exact h.branch_wf (hi t rfl) (0 ≤ s.acc)
  | inp =>
    rcases he with ⟨-, rfl⟩ | ⟨item, rest, hin, rfl⟩
    · exact h.wf
    · exact h.take_wf hin
  | out =>
    obtain rfl : s' = _ := he
    exact h.put_wf

/-- An instruction whose operand, if it has one, is an operand field ends a cycle well formed. -/
theorem exec_wf (h : s.MidCycle) {i : Instr} (hi : ∀ t, i.operand = some t → t ≤ 99) (hs : exec i s = .next s') :
    s'.Wf := by
  rcases exec_cases i s with ⟨t, ht, -, he⟩ | ⟨hin, s1, he, heff⟩ <;>
    obtain rfl := Host.Outcome.next.inj (he.symm.trans hs)
  · exact h.operandFault_wf (hi t ht)
  · exact h.effect_wf hin heff

end State.MidCycle

/-- A fetch inside memory takes a well-formed running machine into the middle of a cycle. -/
theorem State.Wf.fetched_midCycle {s : State} (h : s.Wf) {w : Int} (hw : s.AtWord w) : (s.fetched w).MidCycle := by
  obtain ⟨hlegal, hmem, -, hpcRange, -, -, -, hacc, hfault, -, hin, hout⟩ := h
  obtain ⟨hrun, hread⟩ := hw
  obtain ⟨⟨hpc0, hpcN⟩, hword⟩ := memRead_eq_some hread
  have hwRange : s.cfg.InRange w :=
    hword ▸ Memory.inRange_read hlegal.inRange_zero (fun cell hc => (hmem.2 cell hc).2) _
  exact
    { legal := hlegal, mem := hmem, mar := hpcRange, mdr := hwRange, cir := hwRange, acc := hacc
      pc_nonneg := show 0 ≤ s.pc + 1 by omega
      pc_le := show s.pc + 1 ≤ s.cfg.cells by omega
      noFault := hfault hrun, input := hin, output := hout }

/-- A running machine has PC in `0 .. N`. -/
theorem State.Wf.pc_of_running {s : State} (h : s.Wf) (hrun : s.run = .running) : 0 ≤ s.pc ∧ s.pc ≤ s.cfg.cells := by
  obtain ⟨-, -, hpc | ⟨-, -, -, hhalted⟩, -⟩ := h
  · exact hpc
  · exact absurd (hrun.symm.trans hhalted) nofun

/-- The one fetch outside memory of a well-formed machine is at `N`: it stops with PC at `N + 1` (60_exceptions.md R176). -/
theorem State.Wf.fetchFault_wf {s : State} (h : s.Wf) (hrun : s.run = .running) (hread : memRead s s.pc = none) :
    (raise .outOfBounds { s with mar := s.pc, pc := s.pc + 1 }).Wf := by
  obtain ⟨hpc0, hpcN⟩ := h.pc_of_running hrun
  obtain ⟨hlegal, hmem, -, hpcRange, -, hmdr, hcir, hacc, -, -, hin, hout⟩ := h
  have houtside : ¬ (0 ≤ s.pc ∧ s.pc < s.cfg.cells) := memRead_eq_none hread
  have hpc : s.pc = s.cfg.cells := by omega
  exact ⟨hlegal, hmem, .inr ⟨congrArg (· + 1) hpc, hpc, rfl, rfl⟩,
    hlegal.inRange_address (show 0 ≤ s.pc + 1 by omega) (show s.pc + 1 ≤ s.cfg.cells + 1 by omega),
    hpcRange, hmdr, hcir, hacc, nofun, nofun, hin, hout⟩

/-- Settles O44: of the five ways a step can go, two change nothing, one is the faulting fetch at `N`, and two go through the
middle of a cycle. -/
theorem stepKeepsWellFormed : Obligations.StepKeepsWellFormed := by
  intro s s' h hs
  rcases step_cases s with ⟨-, hstep⟩ | ⟨hrun, hread, hstep⟩ | ⟨w, r, hw, -, hstep⟩ | ⟨-, hstep⟩ |
    ⟨w, i, hw, hd, -, hstep⟩ <;>
    rw [hstep] at hs
  · exact Host.Outcome.next.inj hs ▸ h
  · exact Host.Outcome.next.inj hs ▸ h.fetchFault_wf hrun hread
  · exact Host.Outcome.next.inj hs ▸ (h.fetched_midCycle hw).raise_wf nofun
  · exact Host.Outcome.next.inj hs ▸ h
  · exact (h.fetched_midCycle hw).exec_wf (fun t ht => decode_instr_operand_le hd ht) hs

end Machine

end Sys2Proof

/-! Proofs. The access matrix of 10_state.md R39: what the execute phase of an instruction leaves alone, and how it can stop. -/

namespace Sys2Proof.Machine

/-- A read depends on the parameters and the memory alone. -/
theorem memRead_congr {s s' : State} (hcfg : s'.cfg = s.cfg) (hmem : s'.mem = s.mem) (a : Int) :
    memRead s' a = memRead s a := by
  rw [memRead, memRead, hcfg, hmem]

/-- An accumulation writes ACC and nothing else, or raises the overflow, which the policy `fault` alone allows. -/
theorem accumulate_frame {exact : Int} {s s' : State} (h : accumulate exact s = .next s') :
    (∃ acc, s' = { s with acc := acc }) ∨ (s.cfg.overflow = .fault ∧ s' = raise .overflow s) := by
  rcases accumulate_cases exact s with ⟨-, ha⟩ | ⟨hpolicy, -, ha⟩ <;> rw [ha] at h
  · exact .inl ⟨_, (Host.Outcome.next.inj h).symm⟩
  · exact .inr ⟨hpolicy, (Host.Outcome.next.inj h).symm⟩

/-- What an instruction does is fixed by its effect. -/
theorem Effect.unique {i : Instr} {s s1 s2 : State} (h1 : Effect i s s1) (h2 : Effect i s s2) : s1 = s2 := by
  cases i with
  | add t | sub t => exact Host.Outcome.next.inj (Eq.trans (Eq.symm h1) h2)
  | inp =>
    rcases h1 with ⟨hin1, rfl⟩ | ⟨item1, rest1, hin1, rfl⟩ <;>
      rcases h2 with ⟨hin2, rfl⟩ | ⟨item2, rest2, hin2, rfl⟩ <;> simp_all
  | _ => exact Eq.trans h1 (Eq.symm h2)

/-- An instruction whose operand, if it has one, is in memory answers the state of its effect. -/
theorem exec_of_effect {i : Instr} {s s' : State} (hin : ∀ t, i.operand = some t → t < s.cfg.cells) (h : Effect i s s') :
    exec i s = .next s' := by
  obtain ⟨s1, he, heff⟩ := exec_of_operand_inside hin
  rw [he, heff.unique h]

/-- An operand outside memory stops the instruction, whatever it is. -/
theorem exec_of_operand_outside {i : Instr} {s : State} {t : Nat} (hi : i.operand = some t) (ht : s.cfg.cells ≤ t) :
    exec i s = .next (s.operandFault t) := by
  rcases exec_cases i s with ⟨t', hi', -, he⟩ | ⟨hin, -⟩
  · exact Option.some.inj (hi.symm.trans hi') ▸ he
  · exact absurd (hin t hi) ht.not_gt

/-- Settles O35: an operand outside memory stops the instruction before its execute phase; otherwise ADD and SUB write ACC or
raise the overflow, INP waits or takes, and every other instruction has its one effect. -/
theorem execWritesOnlyWhatTheMatrixNames : Obligations.ExecWritesOnlyWhatTheMatrixNames := by
  intro i s s' hs
  rcases exec_cases i s with ⟨t, hi, ht, he⟩ | ⟨-, s1, he, heff⟩ <;> rw [he] at hs <;>
    obtain rfl := Host.Outcome.next.inj hs
  · simp [hi, ht]
  · cases i with
    | add t | sub t =>
      rcases accumulate_frame heff with ⟨acc, rfl⟩ | ⟨hpolicy, rfl⟩
      · simp [Instr.op, Instr.operand]
      · have hwrap : s.cfg.overflow ≠ .wrap := fun hp => nomatch hp.symm.trans hpolicy
        simp [Instr.op, Instr.operand, hwrap]
    | inp => rcases heff with ⟨-, rfl⟩ | ⟨item, rest, -, rfl⟩ <;> simp [Instr.op, Instr.operand]
    | _ =>
      obtain rfl : s1 = _ := heff
      simp [Instr.op, Instr.operand]

/-- STA is the one instruction that writes memory (10_state.md R39). -/
theorem exec_mem {i : Instr} {s s' : State} (hi : i.op ≠ .sta) (hs : exec i s = .next s') : s'.mem = s.mem := by
  rcases exec_cases i s with ⟨t, -, -, he⟩ | ⟨-, s1, he, heff⟩ <;> rw [he] at hs <;>
    obtain rfl := Host.Outcome.next.inj hs
  · rfl
  · cases i with
    | sta t => exact absurd rfl hi
    | add t | sub t => rcases accumulate_frame heff with ⟨acc, rfl⟩ | ⟨-, rfl⟩ <;> rfl
    | inp => rcases heff with ⟨-, rfl⟩ | ⟨item, rest, -, rfl⟩ <;> rfl
    | _ =>
      obtain rfl : s1 = _ := heff
      rfl

/-- Settles O36: a read depends on the parameters, which no instruction writes, and on the memory, which STA alone writes. -/
theorem onlyStaWritesMemory : Obligations.OnlyStaWritesMemory := by
  intro i s s' hi hs a
  obtain ⟨-, -, hcfg, -⟩ := execWritesOnlyWhatTheMatrixNames i s s' hs
  exact memRead_congr hcfg (exec_mem hi hs) a

/-- An instruction leaves PC alone, or branches to its operand, a cell of memory. -/
theorem exec_pc {i : Instr} {s s' : State} (hs : exec i s = .next s') : s'.pc = s.pc ∨ inBounds s.cfg s'.pc := by
  obtain ⟨-, -, -, -, hframe, -⟩ := execWritesOnlyWhatTheMatrixNames i s s' hs
  rcases exec_cases i s with ⟨t, -, -, he⟩ | ⟨hin, s1, he, heff⟩ <;> rw [he] at hs <;>
    obtain rfl := Host.Outcome.next.inj hs
  · exact .inl rfl
  · cases i with
    | bra t =>
      obtain rfl : s1 = _ := heff
      exact .inr (inBounds_natCast.2 (hin t rfl))
    | brz t | brp t =>
      obtain rfl : s1 = _ := heff
      dsimp only
      split
      · exact .inr (inBounds_natCast.2 (hin t rfl))
      · exact .inl rfl
    | _ => exact .inl (hframe nofun nofun nofun)

/-- An instruction that takes no operand leaves MAR alone; one that does leaves in MAR an address outside memory only where it
raised `OutOfBounds`. -/
theorem exec_mar {i : Instr} {s s' : State} (hs : exec i s = .next s') :
    s'.mar = s.mar ∨ inBounds s.cfg s'.mar ∨ s'.fault = .outOfBounds := by
  obtain ⟨-, -, -, -, -, hnone, -, -, hsome, -⟩ := execWritesOnlyWhatTheMatrixNames i s s' hs
  cases hi : i.operand with
  | none => exact .inl (hnone hi).1
  | some t =>
    right
    rw [hsome t hi, inBounds_natCast]
    rcases exec_cases i s with ⟨t, -, -, he⟩ | ⟨hin, -⟩
    · rw [he] at hs
      exact .inr (Host.Outcome.next.inj hs ▸ rfl)
    · exact .inl (hin t hi)

/-- How an instruction can halt the machine: as a HLT, on an operand outside memory, or on an overflow. -/
theorem exec_halts {i : Instr} {s s' : State} (hs : exec i s = .next s') (hrun : s.run = .running)
    (hhalt : s'.run = .halted) :
    (i.op = .hlt ∧ s'.fault = s.fault) ∨ (s'.fault = .outOfBounds ∧ ¬ inBounds s.cfg s'.mar) ∨
    (s'.fault = .overflow ∧ s.cfg.overflow = .fault ∧ s'.acc = s.acc) := by
  rcases exec_cases i s with ⟨t, -, ht, he⟩ | ⟨hin, s1, he, heff⟩ <;> rw [he] at hs <;>
    obtain rfl := Host.Outcome.next.inj hs
  · exact .inr (.inl ⟨rfl, fun hb => ht.not_gt (inBounds_natCast.1 hb)⟩)
  · have hnot : ¬ s.run = .halted := by simp [hrun]
    cases i with
    | hlt _ =>
      obtain rfl : s1 = _ := heff
      exact .inl ⟨rfl, rfl⟩
    | add t | sub t =>
      rcases accumulate_frame heff with ⟨acc, rfl⟩ | ⟨hpolicy, rfl⟩
      · exact absurd hhalt hnot
      · exact .inr (.inr ⟨rfl, hpolicy, rfl⟩)
    | inp => rcases heff with ⟨-, rfl⟩ | ⟨item, rest, -, rfl⟩ <;> exact absurd hhalt hnot
    | _ =>
      obtain rfl : s1 = _ := heff
      exact absurd hhalt hnot

end Sys2Proof.Machine

/-! Proofs. Rules of the whole cycle: how it can halt a machine, that the old values of MAR, MDR, CIR and OP influence nothing,
and what it keeps. -/

namespace Sys2Proof.Machine

/-- A halted machine has no cycle (40_sequencer.md R100; log 7). -/
theorem step_of_halted {s : State} (h : s.run = .halted) : step s = .next s := by
  simp [step, h]

/-- A running machine whose PC is no cell stops on its fetch (40_sequencer.md R103). -/
theorem step_of_no_read {s : State} (hrun : s.run = .running) (hread : memRead s s.pc = none) :
    step s = .next (raise .outOfBounds { s with mar := s.pc, pc := s.pc + 1 }) := by
  simp [step, hrun, fetch_of_no_read hread]

/-- A waiting INP changes nothing (44_system_io.md R153; log 7). -/
theorem step_of_waits {s : State} (h : s.Waits) : step s = .next s := by
  obtain ⟨⟨hrun, hread⟩, hin⟩ := h
  have hd : decode 901 = .instr .inp := by decide
  simp [step, hrun, fetch_of_read hread, hd, holds, hin]

/-- A cycle at a reserved word raises `UnknownOpcode` in the state after the fetch. -/
theorem step_of_reserved {s : State} {w : Int} {r : Reserved} (hw : s.AtWord w) (hd : decode w = .reserved r) :
    step s = .next (raise .unknownOpcode (s.fetched w)) := by
  obtain ⟨hrun, hread⟩ := hw
  simp [step, hrun, fetch_of_read hread, hd, executeUnknown, latchOp, State.fetched]

/-- A cycle that does not wait runs the decoded instruction in the state after the fetch. -/
theorem step_of_instr {s : State} {w : Int} {i : Instr} (hw : s.AtWord w) (hd : decode w = .instr i)
    (hwait : ¬ (i = .inp ∧ s.input = [])) : step s = exec i (s.fetched w) := by
  obtain ⟨hrun, hread⟩ := hw
  simp [step, hrun, fetch_of_read hread, hd, holds, hwait, latchOp, State.fetched]

/-- Settles O39: of the five ways a step can go, two leave RUN alone, two raise a fatal condition, and the last halts as the
instruction does. -/
theorem onlyHltOrAFatalConditionHalts : Obligations.OnlyHltOrAFatalConditionHalts := by
  intro s s' hrun hs hhalt
  have hnot : ¬ s.run = .halted := by simp [hrun]
  rcases step_cases s with ⟨hr, -⟩ | ⟨-, hread, hstep⟩ | ⟨w, r, hw, hd, hstep⟩ | ⟨-, hstep⟩ | ⟨w, i, hw, hd, -, hstep⟩
  · exact absurd hr hnot
  · obtain rfl := Host.Outcome.next.inj (hstep.symm.trans hs)
    exact .inr (.inr (.inl ⟨rfl, memRead_eq_none hread⟩))
  · obtain rfl := Host.Outcome.next.inj (hstep.symm.trans hs)
    exact .inr (.inl ⟨w, hw, decode_reserved_op hd, rfl, rfl⟩)
  · obtain rfl := Host.Outcome.next.inj (hstep.symm.trans hs)
    exact absurd hhalt hnot
  · rcases exec_halts (hstep.symm.trans hs) hrun hhalt with ⟨hop, hfault⟩ | houtside | hoverflow
    · obtain ⟨hlo, hhi⟩ := (decodeOp_eq_hlt_iff w).1 (decode_instr_op hd ▸ hop)
      exact .inl ⟨w, hw, hlo, hhi, hfault⟩
    · exact .inr (.inr (.inl houtside))
    · exact .inr (.inr (.inr hoverflow))

/-- Settles O42: the fetch writes MAR, MDR, CIR and OP, so the state after it is the same whatever they held. -/
theorem oldMarMdrCirOpInfluenceNothing : Obligations.OldMarMdrCirOpInfluenceNothing := by
  intro s mar mdr cir op hrun hpc0 hpcN hnowait
  have hw : s.AtWord (s.mem.read s.pc.toNat) := ⟨hrun, memRead_of_inBounds ⟨hpc0, hpcN⟩⟩
  have hw' : State.AtWord { s with mar := mar, mdr := mdr, cir := cir, op := op } (s.mem.read s.pc.toNat) := hw
  cases hd : decode (s.mem.read s.pc.toNat) with
  | reserved r => exact (step_of_reserved hw' hd).trans (step_of_reserved hw hd).symm
  | instr i =>
    have hwait : ¬ (i = .inp ∧ s.input = []) := by
      rintro ⟨rfl, hin⟩
      exact hnowait ⟨decode_instr_inp hd ▸ hw, hin⟩
    exact (step_of_instr hw' hd hwait).trans (step_of_instr hw hd hwait).symm

/-- Every cycle answers a next state (70_reset_and_hazards.md R221). -/
theorem step_answers (s : State) : ∃ s', step s = .next s' := by
  rcases step_cases s with ⟨-, h⟩ | ⟨-, -, h⟩ | ⟨w, r, -, -, h⟩ | ⟨-, h⟩ | ⟨w, i, -, -, -, h⟩
  iterate 4 exact ⟨_, h⟩
  rcases exec_cases i (s.fetched w) with ⟨t, -, -, he⟩ | ⟨-, s', he, -⟩ <;> exact ⟨_, h.trans he⟩

/-- No cycle writes the parameters. -/
theorem step_cfg {s s' : State} (hs : step s = .next s') : s'.cfg = s.cfg := by
  rcases step_cases s with ⟨-, h⟩ | ⟨-, -, h⟩ | ⟨w, r, -, -, h⟩ | ⟨-, h⟩ | ⟨w, i, -, -, -, h⟩ <;> rw [h] at hs
  iterate 4 exact Host.Outcome.next.inj hs ▸ rfl
  obtain ⟨-, -, hcfg, -⟩ := execWritesOnlyWhatTheMatrixNames i (s.fetched w) s' hs
  exact hcfg

/-- A running machine whose PC fits has it in `0 .. N`. -/
theorem State.PcFits.of_running {s : State} (h : s.PcFits) (hrun : s.run = .running) : 0 ≤ s.pc ∧ s.pc ≤ s.cfg.cells := by
  rcases h with hpc | ⟨-, -, -, hhalted⟩
  · exact hpc
  · exact absurd (hrun.symm.trans hhalted) nofun

/-- A cycle keeps PC in its range: one fetch past the end stops the machine, and a branch goes to a cell of memory. -/
theorem step_pcFits {s s' : State} (h : s.PcFits) (hs : step s = .next s') : s'.PcFits := by
  have hcfg := step_cfg hs
  rcases step_cases s with ⟨-, hstep⟩ | ⟨hrun, hread, hstep⟩ | ⟨w, r, ⟨-, hread⟩, -, hstep⟩ | ⟨-, hstep⟩ |
    ⟨w, i, ⟨-, hread⟩, -, -, hstep⟩ <;> rw [hstep] at hs
  · exact Host.Outcome.next.inj hs ▸ h
  · have hpc := h.of_running hrun
    have houtside : ¬ (0 ≤ s.pc ∧ s.pc < s.cfg.cells) := memRead_eq_none hread
    have hend : s.pc = s.cfg.cells := by omega
    exact Host.Outcome.next.inj hs ▸ .inr ⟨congrArg (· + 1) hend, hend, rfl, rfl⟩
  · obtain ⟨⟨hpc0, hpcN⟩, -⟩ := memRead_eq_some hread
    exact Host.Outcome.next.inj hs ▸ .inl ⟨show 0 ≤ s.pc + 1 by omega, show s.pc + 1 ≤ s.cfg.cells by omega⟩
  · exact Host.Outcome.next.inj hs ▸ h
  · obtain ⟨⟨hpc0, hpcN⟩, -⟩ := memRead_eq_some hread
    left
    rw [hcfg]
    rcases exec_pc hs with hpc | ⟨hlo, hhi⟩
    · have hnext : s'.pc = s.pc + 1 := hpc
      omega
    · exact ⟨hlo, hhi.le⟩

/-- MAR names a cell of memory unless FAULT says otherwise (10_state.md R25). -/
abbrev State.MarFits (s : State) : Prop := s.fault ≠ .outOfBounds → inBounds s.cfg s.mar

/-- A cycle writes MAR with a PC or an operand that was in bounds, or raises `OutOfBounds`. -/
theorem step_marFits {s s' : State} (h : s.MarFits) (hs : step s = .next s') : s'.MarFits := by
  have hcfg := step_cfg hs
  rcases step_cases s with ⟨-, hstep⟩ | ⟨-, -, hstep⟩ | ⟨w, r, ⟨-, hread⟩, -, hstep⟩ | ⟨-, hstep⟩ |
    ⟨w, i, ⟨-, hread⟩, -, -, hstep⟩ <;> rw [hstep] at hs
  · exact Host.Outcome.next.inj hs ▸ h
  · exact Host.Outcome.next.inj hs ▸ fun hfault => absurd rfl hfault
  · exact Host.Outcome.next.inj hs ▸ fun _ => (memRead_eq_some hread).1
  · exact Host.Outcome.next.inj hs ▸ h
  · intro hfault
    rw [hcfg]
    rcases exec_mar hs with hmar | hmar | hmar
    · exact hmar ▸ (memRead_eq_some hread).1
    · exact hmar
    · exact absurd hmar hfault

end Sys2Proof.Machine

/-! Proofs. The machine with its surroundings: the state after reset, and what no sequence of events can break. -/

namespace Sys2Proof.Machine

/-- Settles O10: every field is read off `State.initial`, and a memory that lists nothing reads 0. -/
theorem resetSetsEveryFieldButInput : Obligations.ResetSetsEveryFieldButInput := by
  refine ⟨fun s => ⟨rfl, rfl, rfl, rfl, rfl, rfl, rfl, fun a => rfl, fun h => ?_, fun mar mdr cir acc h => ?_⟩, rfl, rfl, rfl⟩
  · simp [hostReset, Config.resetMar, Config.resetMdr, Config.resetCir, Config.resetAcc, h]
  · simp [hostReset, Config.resetMar, Config.resetMdr, Config.resetCir, Config.resetAcc, h]

theorem State.initial_wf {c : Config} {items : List InputItem} (hc : c.Legal) (hitems : ∀ item ∈ items, item.Fits c) :
    (State.initial c items).Wf := by
  obtain ⟨-, -, -, hmar, hmdr, hcir, hacc⟩ := id hc
  exact ⟨hc, Memory.fits_nil c, .inl ⟨le_rfl, Int.natCast_nonneg _⟩, hc.inRange_zero, hmar, hmdr, hcir, hacc, nofun, nofun,
    hitems, nofun⟩

/-- Settles O43: the reset registers are words by the constraints on the parameters, and the default parameters meet them. -/
theorem resetStatesAreWellFormed : Obligations.ResetStatesAreWellFormed :=
  ⟨State.initial_wf (by decide) nofun, fun _ _ => State.initial_wf⟩

/-- Everything an event can do, as far as the registers and the control state go: a cycle, a reset, a start, or nothing. -/
theorem after_control_cases (e : Event) (s : State) :
    (e = .cycle ∧ step s = .next (State.after e s)) ∨ (e = .reset ∧ State.after e s = hostReset s) ∨
    (s.run = .halted ∧ s.fault = .none ∧ State.after e s = { s with run := .running }) ∨
    ∃ mem input, State.after e s = { s with mem := mem, input := input } := by
  by_cases he : e = .cycle
  · subst he
    obtain ⟨s', hs⟩ := step_answers s
    exact .inl ⟨rfl, by simp only [State.after, hs]⟩
  · right
    rcases after_cases he s with h | h | h | ⟨a, v, -, -, -, h⟩ | ⟨program, words, -, -, h⟩ | ⟨item, h⟩ | ⟨line, h⟩
    · exact .inr (.inr ⟨_, _, h⟩)
    · exact .inl h
    · exact .inr (.inl h)
    iterate 4 exact .inr (.inr ⟨_, _, h⟩)

/-- What every event keeps holds after any sequence of them. -/
theorem afterAll_induction {P : State → Prop} (hafter : ∀ e s, P s → P (State.after e s)) (events : List Event) {s : State}
    (h : P s) : P (State.afterAll events s) := by
  induction events generalizing s with
  | nil => exact h
  | cons e events ih => exact ih (hafter e s h)

/-- No event changes the parameters. -/
theorem after_cfg (e : Event) (s : State) : (State.after e s).cfg = s.cfg := by
  rcases after_control_cases e s with ⟨-, h⟩ | ⟨-, h⟩ | ⟨-, -, h⟩ | ⟨mem, input, h⟩
  · exact step_cfg h
  all_goals exact h ▸ rfl

theorem afterAll_cfg (events : List Event) (s : State) : (State.afterAll events s).cfg = s.cfg :=
  afterAll_induction (P := fun s1 => s1.cfg = s.cfg) (fun e s1 h => (after_cfg e s1).trans h) events rfl

/-- Every event keeps PC in its range: a machine stopped past the end cannot be started. -/
theorem after_pcFits (e : Event) (s : State) (h : s.PcFits) : (State.after e s).PcFits := by
  rcases after_control_cases e s with ⟨-, hs⟩ | ⟨-, hs⟩ | ⟨-, hfault, hs⟩ | ⟨mem, input, hs⟩
  · exact step_pcFits h hs
  · exact hs ▸ .inl ⟨le_rfl, Int.natCast_nonneg _⟩
  · rcases h with hpc | ⟨-, -, hf, -⟩
    · exact hs ▸ .inl hpc
    · exact absurd (hfault.symm.trans hf) nofun
  · exact hs ▸ h

/-- Settles O46: PC fits after reset and every event keeps that. -/
theorem pcStaysInMemoryFromReset : Obligations.PcStaysInMemoryFromReset := by
  intro c items events _ _ s
  have hcfg : s.cfg = c := afterAll_cfg events _
  have hpc : s.PcFits := afterAll_induction after_pcFits events (.inl ⟨le_rfl, Int.natCast_nonneg _⟩)
  rw [State.PcFits, hcfg] at hpc
  rcases hpc with ⟨hlo, hhi⟩ | ⟨hpc, hmar, hfault, hhalted⟩
  · exact ⟨hcfg, hlo, by omega, fun _ => hhi, fun _ => by omega⟩
  · exact ⟨hcfg, by omega, hpc.le, fun hrun => absurd (hrun.symm.trans hhalted) nofun, fun _ => ⟨hhalted, hfault, hmar⟩⟩

/-- The reset state of a machine whose registers reset to 0 has MAR at cell 0. -/
theorem initial_marFits {c : Config} (hc : 1 ≤ c.cells) (hzero : c.resetRegs = .zero) (items : List InputItem) :
    (State.initial c items).MarFits := by
  intro _
  have hmar : c.resetMar = 0 := by simp [Config.resetMar, hzero]
  simp [inBounds, hmar]
  omega

/-- Every event keeps MAR on a cell unless FAULT = OUT_OF_BOUNDS, in a machine whose registers reset to 0. -/
theorem after_marFits (e : Event) {s : State} (hcells : 1 ≤ s.cfg.cells) (hzero : s.cfg.resetRegs = .zero) (h : s.MarFits) :
    (State.after e s).MarFits := by
  rcases after_control_cases e s with ⟨-, hs⟩ | ⟨-, hs⟩ | ⟨-, -, hs⟩ | ⟨mem, input, hs⟩
  · exact step_marFits h hs
  · exact hs ▸ initial_marFits hcells hzero s.input
  · exact hs ▸ h
  · exact hs ▸ h

/-- Settles O47: MAR fits after reset and every event keeps that, the parameters being constant. -/
theorem marNamesACellUnlessOutOfBounds : Obligations.MarNamesACellUnlessOutOfBounds := by
  intro c items events hc hzero _ s
  obtain ⟨-, hcells, -⟩ := hc
  have hkept : s.cfg = c ∧ s.MarFits := by
    refine afterAll_induction (P := fun s1 => s1.cfg = c ∧ s1.MarFits) ?_ events ⟨rfl, initial_marFits hcells hzero items⟩
    rintro e s1 ⟨rfl, hmar⟩
    exact ⟨after_cfg e s1, after_marFits e hcells hzero hmar⟩
  obtain ⟨hcfg, hmar⟩ := hkept
  exact hcfg ▸ hmar

/-- In a machine stopped by a fault, an event other than reset reaches the memory and the input channel only. -/
theorem after_of_faulted {e : Event} {s : State} (hrun : s.run = .halted) (hfault : s.fault ≠ .none) (he : e ≠ .reset) :
    ∃ mem input, State.after e s = { s with mem := mem, input := input } := by
  rcases after_control_cases e s with ⟨-, h⟩ | ⟨hreset, -⟩ | ⟨-, hf, -⟩ | h
  · exact ⟨_, _, Host.Outcome.next.inj (h.symm.trans (step_of_halted hrun))⟩
  · exact absurd hreset he
  · exact absurd hf hfault
  · exact h

theorem afterAll_of_faulted {events : List Event} {s : State} (hrun : s.run = .halted) (hfault : s.fault ≠ .none)
    (he : .reset ∉ events) : ∃ mem input, State.afterAll events s = { s with mem := mem, input := input } := by
  induction events generalizing s with
  | nil => exact ⟨_, _, rfl⟩
  | cons e events ih =>
    obtain ⟨hne, hrest⟩ := List.ne_and_not_mem_of_not_mem_cons he
    obtain ⟨mem, input, h⟩ := after_of_faulted hrun hfault hne.symm
    rw [State.afterAll, h]
    exact ih hrun hfault hrest

/-- Settles O48: no event but reset reaches the registers, the control state or the output of a machine stopped by a fault. -/
theorem faultStaysUntilReset : Obligations.FaultStaysUntilReset := by
  intro events s hrun hfault he s'
  obtain ⟨mem, input, h⟩ := afterAll_of_faulted hrun hfault he
  simp [s', h, hrun]

end Sys2Proof.Machine

/-! Proofs. The machine fed from an input sequence (10_state.md R34, R35). A cycle takes at most the first item of its channel,
so items further back ride along unseen; that is what lets a window of one item stand for a window of any length. -/

namespace Sys2Proof.Machine

/-- An accumulation does not see the input channel. -/
theorem accumulate_input {exact : Int} {s s' : State} (h : accumulate exact s = .next s') (items : List InputItem) :
    s'.input = s.input ∧ accumulate exact { s with input := items } = .next { s' with input := items } := by
  rcases accumulate_cases exact s with ⟨hfits, ha⟩ | ⟨hpolicy, hout, ha⟩ <;>
    obtain rfl := Host.Outcome.next.inj (ha.symm.trans h) <;> refine ⟨rfl, ?_⟩
  · cases hp : s.cfg.overflow with
    | wrap => simp [accumulate, hp]
    | fault => simp [accumulate, hp, hfits hp]
  · simp only [accumulate, hpolicy, if_neg hout]
    rfl

/-- Items behind the first one change nothing for an instruction. -/
theorem exec_append_input {i : Instr} {s s' : State} (hs : exec i s = .next s') (hne : s.input ≠ []) (more : List InputItem) :
    exec i { s with input := s.input ++ more } = .next { s' with input := s'.input ++ more } := by
  rcases exec_cases i s with ⟨t, hi, ht, he⟩ | ⟨hin, s1, he, heff⟩ <;> rw [he] at hs <;>
    obtain rfl := Host.Outcome.next.inj hs
  · exact exec_of_operand_outside hi ht
  · refine exec_of_effect hin ?_
    cases i with
    | add t | sub t =>
      obtain ⟨hsame, hacc⟩ := accumulate_input heff (s.input ++ more)
      exact hsame ▸ hacc
    | inp =>
      rcases heff with ⟨hempty, -⟩ | ⟨item, rest, hitem, rfl⟩
      · exact absurd hempty hne
      · exact .inr ⟨item, rest ++ more, by simp [hitem], rfl⟩
    | _ =>
      obtain rfl : s1 = _ := heff
      rfl

/-- An INP with an item in its channel takes it (44_system_io.md R152). -/
theorem exec_inp_of_cons {s : State} {item : InputItem} {rest : List InputItem} (h : s.input = item :: rest) :
    exec .inp s = .next { s with acc := item.value, input := rest } :=
  exec_of_effect nofun (.inr ⟨item, rest, h, rfl⟩)

/-- An instruction leaves the input channel alone, or takes its first item. -/
theorem exec_input {i : Instr} {s s' : State} (hs : exec i s = .next s') :
    s'.input = s.input ∨ ∃ item, s.input = item :: s'.input := by
  obtain ⟨-, -, -, -, -, -, hframe, -⟩ := execWritesOnlyWhatTheMatrixNames i s s' hs
  cases i with
  | inp =>
    obtain ⟨s1, he, heff⟩ := exec_of_operand_inside (i := .inp) (s := s) nofun
    obtain rfl := Host.Outcome.next.inj (he.symm.trans hs)
    rcases heff with ⟨-, rfl⟩ | ⟨item, rest, hitem, rfl⟩
    · exact .inl rfl
    · exact .inr ⟨item, hitem⟩
  | _ => exact .inl (hframe nofun)

/-- A cycle leaves the input channel alone, or takes its first item (10_state.md R35). -/
theorem step_input {s s' : State} (hs : step s = .next s') : s'.input = s.input ∨ ∃ item, s.input = item :: s'.input := by
  rcases step_cases s with ⟨-, h⟩ | ⟨-, -, h⟩ | ⟨w, r, -, -, h⟩ | ⟨-, h⟩ | ⟨w, i, -, -, -, h⟩ <;> rw [h] at hs
  iterate 4 exact .inl (Host.Outcome.next.inj hs ▸ rfl)
  exact exec_input (s := s.fetched w) hs

/-- Items behind the first one change nothing for a cycle. -/
theorem step_append_input {s s' : State} (hs : step s = .next s') (hne : s.input ≠ []) (more : List InputItem) :
    step { s with input := s.input ++ more } = .next { s' with input := s'.input ++ more } := by
  rcases step_cases s with ⟨hrun, h⟩ | ⟨hrun, hread, h⟩ | ⟨w, r, hw, hd, h⟩ | ⟨⟨-, hempty⟩, -⟩ | ⟨w, i, hw, hd, -, h⟩
  · obtain rfl := Host.Outcome.next.inj (h.symm.trans hs)
    exact step_of_halted hrun
  · obtain rfl := Host.Outcome.next.inj (h.symm.trans hs)
    exact step_of_no_read hrun hread
  · obtain rfl := Host.Outcome.next.inj (h.symm.trans hs)
    exact step_of_reserved hw hd
  · exact absurd hempty hne
  · have hne' : s.input ++ more ≠ [] := by simp [hne]
    refine (step_of_instr (s := { s with input := s.input ++ more }) hw hd fun hwait => hne' hwait.2).trans ?_
    exact exec_append_input (s := s.fetched w) (h.symm.trans hs) hne more

namespace InputSequence

variable {source : InputSequence} {c : Config} {n : Nat}

@[simp] theorem window_zero : source.window c n 0 = [] := rfl

/-- The window at the end of a sequence is empty. -/
theorem window_of_none (h : source.item? n = none) (k : Nat) : source.window c n k = [] := by
  cases k with
  | zero => rfl
  | succ k => simp [window, h]

theorem window_succ_of_some {item : InputItem} (h : source.item? n = some item) (k : Nat) :
    source.window c n (k + 1) = item.fitted c :: source.window c (n + 1) k := by
  simp [window, h]

end InputSequence

/-- A fed cycle is the step of the core that sees one item, and it counts the items gone. -/
theorem Fed.step_eq {source : InputSequence} {m : Fed} {s : State} (h : Machine.step (m.seeing source 1) = .next s) :
    m.step source =
      .next ⟨{ s with input := [] }, m.taken + ((source.window m.core.cfg m.taken 1).length - s.input.length)⟩ := by
  simp [Fed.step, h]

/-- A core with its channel emptied, seeing a window, is the core with that window in its channel. -/
theorem Fed.seeing_of_window {source : InputSequence} {s : State} {items : List InputItem} {n k : Nat}
    (h : items = source.window s.cfg n k) : Fed.seeing source k ⟨{ s with input := [] }, n⟩ = { s with input := items } := by
  simp only [Fed.seeing, h]

/-- A fed cycle takes at most one item, and does what `step` does on any window of at least one. -/
theorem Fed.step_refines (source : InputSequence) (m : Fed) {k : Nat} (hk : 1 ≤ k) :
    ∃ m', m.step source = .next m' ∧ m.taken ≤ m'.taken ∧ m'.taken ≤ m.taken + 1 ∧
      Machine.step (m.seeing source k) = .next (m'.seeing source (k - (m'.taken - m.taken))) := by
  obtain ⟨s, hs⟩ := step_answers (m.seeing source 1)
  have hcfg : s.cfg = (m.seeing source 1).cfg := step_cfg hs
  have hin : s.input = (m.seeing source 1).input ∨ ∃ item, (m.seeing source 1).input = item :: s.input := step_input hs
  simp only [seeing_fields] at hcfg hin
  cases hitem : source.item? m.taken with
  | none =>
    have hwindow := InputSequence.window_of_none (c := m.core.cfg) hitem
    have hempty : s.input = [] := by simpa [hwindow] using hin
    have hsame : m.seeing source k = m.seeing source 1 := by simp only [Fed.seeing, hwindow]
    refine ⟨⟨{ s with input := [] }, m.taken⟩, by simpa [hwindow] using Fed.step_eq hs, le_rfl, by simp, ?_⟩
    rw [hsame, hs, Fed.seeing_of_window (items := s.input)]
    rw [hempty, hcfg, hwindow]
  | some item =>
    obtain ⟨j, rfl⟩ : ∃ j, k = j + 1 := ⟨k - 1, by omega⟩
    have hwindow := InputSequence.window_succ_of_some (c := m.core.cfg) hitem
    have hone : source.window m.core.cfg m.taken 1 = [item.fitted m.core.cfg] := hwindow 0
    have hstep : Machine.step (m.seeing source (j + 1)) =
        .next { s with input := s.input ++ source.window m.core.cfg (m.taken + 1) j } := by
      have happend := step_append_input hs (by simp [hone]) (source.window m.core.cfg (m.taken + 1) j)
      simpa [Fed.seeing, hwindow] using happend
    rw [hone] at hin
    rcases hin with hkept | ⟨first, hfirst⟩
    · refine ⟨⟨{ s with input := [] }, m.taken⟩, by simpa [hone, hkept] using Fed.step_eq hs, le_rfl, by simp, ?_⟩
      rw [hstep, Nat.sub_self, Nat.sub_zero, Fed.seeing_of_window]
      rw [hkept, hcfg, hwindow, List.singleton_append]
    · obtain ⟨-, hempty⟩ := List.cons.inj hfirst
      refine ⟨⟨{ s with input := [] }, m.taken + 1⟩, by simpa [hone, ← hempty] using Fed.step_eq hs, by simp, le_rfl, ?_⟩
      rw [hstep, Nat.add_sub_cancel_left, Nat.add_sub_cancel, Fed.seeing_of_window]
      rw [← hempty, hcfg, List.nil_append]

/-- An INP of a fed machine takes the next item of the sequence, if there is one. -/
theorem Fed.step_inp_of_item {source : InputSequence} {m : Fed} {item : InputItem} (hw : m.core.AtWord 901)
    (hitem : source.item? m.taken = some item) :
    m.step source = .next
      ⟨{ m.core with
          pc := m.core.pc + 1, mar := m.core.pc, mdr := 901, cir := 901, op := .inp,
          acc := (item.fitted m.core.cfg).value, input := [] }, m.taken + 1⟩ := by
  have hone : source.window m.core.cfg m.taken 1 = [item.fitted m.core.cfg] := InputSequence.window_succ_of_some hitem 0
  have hd : decode 901 = .instr .inp := by decide
  have hstep := step_of_instr (s := m.seeing source 1) hw hd (by simp [hone])
  rw [exec_inp_of_cons (s := (m.seeing source 1).fetched 901) hone] at hstep
  rw [Fed.step_eq hstep, hone]
  rfl

/-- An INP of a fed machine whose sequence is exhausted waits, and nothing changes. -/
theorem Fed.step_inp_of_no_item {source : InputSequence} {m : Fed} (hw : m.core.AtWord 901) (hin : m.core.input = [])
    (hitem : source.item? m.taken = none) : m.step source = .next m := by
  have hwindow : source.window m.core.cfg m.taken 1 = [] := InputSequence.window_of_none hitem 1
  have hsame : m.seeing source 1 = m.core := by simp [Fed.seeing, hwindow, ← hin]
  have hstep : Machine.step (m.seeing source 1) = .next m.core := hsame.symm ▸ step_of_waits ⟨hw, hin⟩
  rw [Fed.step_eq hstep, hwindow, ← hin]
  simp

/-- Settles O60: one window of items stands for any longer one, and at an INP the next item, or its absence, decides. -/
theorem inputSequenceDrivesTheStep : Obligations.InputSequenceDrivesTheStep := by
  refine ⟨fun source m k => Fed.step_refines source m, fun item m hw => Fed.step_inp_of_item hw rfl, fun items m hw hin => ?_⟩
  cases hitem : items[m.taken]? with
  | none => exact iff_of_true (Fed.step_inp_of_no_item hw hin hitem) (List.getElem?_eq_none_iff.1 hitem)
  | some item =>
    have hlt : m.taken < items.length := (List.getElem?_eq_some_iff.1 hitem).1
    refine iff_of_false (fun hsame => ?_) hlt.not_ge
    have hnext := Fed.step_inp_of_item (source := .finite items) hw hitem
    have htaken := congrArg Fed.taken (Host.Outcome.next.inj (hnext.symm.trans hsame))
    exact absurd htaken (Nat.succ_ne_self m.taken)

end Sys2Proof.Machine

/-! Proofs. The canonical form of memory (20_memory.md R50): what a canonical list reads as determines the list, head first. And
memory shared by code and data (20_memory.md R62): what STA writes, the next fetch reads. -/

namespace Sys2Proof.Machine

/-- Up to an address that lies below every listed cell, everything reads as unlisted. -/
theorem Memory.read_of_le_below {m : Memory} {k a : Nat} (hk : ∀ cell ∈ m, k < cell.1) (ha : a ≤ k) :
    Memory.read m a = Memory.unlisted :=
  Memory.read_of_not_listed fun cell hc => (ha.trans_lt (hk cell hc)).ne'

/-- The tail of a canonical memory reads as the whole, but for the cell of the head. -/
theorem Memory.read_tail {m : Memory} {k : Nat} {v : Int} (hm : Memory.wf ((k, v) :: m) = true) (a : Nat) :
    Memory.read m a = if k = a then Memory.unlisted else Memory.read ((k, v) :: m) a := by
  obtain ⟨-, hlt, -⟩ := (Memory.wf_cons k v m).1 hm
  split
  · next hka => exact Memory.read_of_le_below hlt hka.ge
  · next hka => rw [Memory.read_cons, if_neg hka]

/-- The head of a canonical memory is seen by a read, so a memory that reads the same lists a cell at its address or below. -/
theorem Memory.exists_le_of_read_eq {m m' : Memory} {k : Nat} {v : Int} (hm : Memory.wf ((k, v) :: m) = true)
    (hread : Memory.read ((k, v) :: m) k = Memory.read m' k) : ∃ cell ∈ m', cell.1 ≤ k := by
  obtain ⟨hv, -, -⟩ := (Memory.wf_cons k v m).1 hm
  by_contra! hbelow
  rw [Memory.read_cons, if_pos rfl, Memory.read_of_le_below hbelow le_rfl] at hread
  exact hv hread

/-- Two canonical memories that read the same begin with the same address: neither begins above the other. -/
theorem Memory.head_le_of_read_eq {m m' : Memory} {k k' : Nat} {v v' : Int} (hm : Memory.wf ((k, v) :: m) = true)
    (hm' : Memory.wf ((k', v') :: m') = true)
    (hread : Memory.read ((k, v) :: m) k = Memory.read ((k', v') :: m') k) : k' ≤ k := by
  obtain ⟨-, hlt, -⟩ := (Memory.wf_cons k' v' m').1 hm'
  obtain ⟨cell, hc, hle⟩ := Memory.exists_le_of_read_eq hm hread
  rcases List.mem_cons.1 hc with rfl | hc
  · exact hle
  · exact (hlt cell hc).le.trans hle

/-- Settles O9, by induction on one memory with the other general: the heads are the same cell, and the tails read the same. -/
theorem canonicalMemoriesWithEqualReadsAreEqual : Obligations.CanonicalMemoriesWithEqualReadsAreEqual := by
  intro m
  induction m with
  | nil =>
    rintro (_ | ⟨⟨k', v'⟩, m'⟩) - hm' hread
    · rfl
    · obtain ⟨cell, hc, -⟩ := Memory.exists_le_of_read_eq hm' (hread k').symm
      cases hc
  | cons head m ih =>
    obtain ⟨k, v⟩ := head
    rintro (_ | ⟨⟨k', v'⟩, m'⟩) hm hm' hread
    · obtain ⟨cell, hc, -⟩ := Memory.exists_le_of_read_eq hm (hread k)
      cases hc
    · obtain rfl : k = k' :=
        le_antisymm (Memory.head_le_of_read_eq hm' hm (hread k').symm) (Memory.head_le_of_read_eq hm hm' (hread k))
      obtain rfl : v = v' := by simpa [Memory.read_cons] using hread k
      obtain ⟨-, -, htail⟩ := (Memory.wf_cons k v m).1 hm
      obtain ⟨-, -, htail'⟩ := (Memory.wf_cons k v m').1 hm'
      have hreads : ∀ a, Memory.read m a = Memory.read m' a := fun a => by
        rw [Memory.read_tail hm, Memory.read_tail hm', hread a]
      rw [ih m' htail htail' hreads]

/-- The word 300 + t is STA t (30_encoding.md R74). -/
theorem decode_sta {t : Nat} (ht : t ≤ 99) : decode (300 + t) = .instr (.sta t) := by
  have hround := Laws.RoundTrip.sta t (decide_eq_true ht)
  simpa [encode] using hround

/-- A whole cycle of STA at a cell of memory. -/
theorem step_sta {s : State} {t : Nat} (ht : t ≤ 99) (hw : s.AtWord (300 + t)) (hcell : t < s.cfg.cells) :
    step s = .next { s.fetched (300 + t) with
      mar := (t : Int), mem := s.mem.write t s.acc,
      mdr := if s.cfg.mdrAfterSta = .old then s.mem.read t else s.acc } := by
  have hin : ∀ a, (Instr.sta t).operand = some a → a < s.cfg.cells := fun a ha => Option.some.inj ha ▸ hcell
  rw [step_of_instr hw (decode_sta ht) (fun hwait => nomatch hwait.1)]
  exact exec_of_effect (s := s.fetched (300 + t)) hin rfl

/-- A read at the address of a cell happens. -/
theorem memRead_natCast {s : State} {t : Nat} (h : t < s.cfg.cells) : memRead s (t : Int) = some (s.mem.read t) :=
  memRead_of_inBounds (inBounds_natCast.2 h)

/-- Settles O40: the cycle leaves PC at the cell it stored to, and a canonical memory reads back what was written. -/
theorem storedWordIsTheNextFetched : Obligations.StoredWordIsTheNextFetched := by
  intro s t ht hw hpc hcell hm
  refine ⟨_, step_sta ht hw hcell, hw.1, ?_⟩
  have hback : (s.mem.write t s.acc).read t = s.acc := by rw [Memory.read_write hm, if_pos rfl]
  simp [← hpc, memRead_natCast, hcell, hback]

end Sys2Proof.Machine

/-! Proofs. Encode and decode are inverse (30_encoding.md R77, R80): what the operation of a word says of its quotient and
remainder, what an instruction's operation and operand say of its word, and from these the two round trips. -/

namespace Sys2Proof

/-- Settles O7, one instruction at a time: a packed word splits back into its opcode and operand, and the sentinels are looked
up before the quotient. -/
theorem decodeOfEncodeIsTheInstruction : Obligations.DecodeOfEncodeIsTheInstruction
  | .hlt field => Laws.RoundTrip.hlt field
  | .add t => Laws.RoundTrip.add t
  | .sub t => Laws.RoundTrip.sub t
  | .sta t => Laws.RoundTrip.sta t
  | .lda t => Laws.RoundTrip.lda t
  | .bra t => Laws.RoundTrip.bra t
  | .brz t => Laws.RoundTrip.brz t
  | .brp t => Laws.RoundTrip.brp t
  | .inp => Laws.RoundTrip.inp
  | .out => Laws.RoundTrip.out

/-- A word is rejected when the decoder finds no operation, for the reason of its range. -/
theorem decode_eq_reserved_iff (w : Int) (r : Reserved) :
    decode w = .reserved r ↔ decodeOp w = .unknown ∧ reservedReason w = r := by
  unfold decode
  cases decodeOp w <;> simp

/-- The reason by ranges of words, the words that are not rejected among them. -/
theorem reservedReason_eq (w : Int) :
    reservedReason w =
      if w < 0 then .negative else if 400 ≤ w ∧ w ≤ 499 then .opcodeFour
      else if 900 ≤ w ∧ w ≤ 999 then .opcodeNine else .fourDigits := by
  simp [reservedReason, tdiv_hundred_eq_iff]

/-- Settles O5: each reason is one range of words, met with the words that name no operation. -/
theorem reservedWordsAreRejectedByName : Obligations.ReservedWordsAreRejectedByName := by
  intro w
  simp only [decode_eq_reserved_iff, decodeOp_eq_unknown_iff, reservedReason_eq]
  split_ifs <;> simp only [eq_self, and_true, and_false, false_iff] <;> omega

theorem packedOpcode_nonneg {op : Op} {c : Int} (h : packedOpcode op = some c) : 0 ≤ c := by
  cases op <;> simp [packedOpcode, opcodeTable] at h <;> omega

/-- An operation is packed with an opcode above 0, or is HLT, whose opcode is 0, or a sentinel, or UNKNOWN. -/
theorem packedOpcode_cases (op : Op) :
    (∃ c, packedOpcode op = some c ∧ 1 ≤ c) ∨ op = .hlt ∨ op = .inp ∨ op = .out ∨ op = .unknown := by
  cases op <;> simp [packedOpcode, opcodeTable]

/-- `encode(op, a)` of a packed operation (30_encoding.md R80). -/
theorem encodeOp_packed {op : Op} {c : Int} (h : packedOpcode op = some c) (a : Int) :
    encodeOp op a = if 0 ≤ a ∧ a ≤ 99 then some (c * 100 + a) else none := by
  have hsentinel : sentinelWord op = none := by
    cases op <;> simp [packedOpcode, opcodeTable] at h <;> rfl
  rw [encodeOp, hsentinel, h]

/-- A word of a packed operation is its opcode and its remainder. -/
theorem packed_of_decodeOp {op : Op} {c : Int} (h : packedOpcode op = some c) {w : Int} (hw : decodeOp w = op) :
    w = c * 100 + tmod w 100 := by
  have hq : tdiv w 100 = c := (decodeOp_eq_iff_tdiv h w).1 hw
  rw [tmod, hq]
  omega

/-- The remainder of a HLT word is the word (30_encoding.md R78). -/
theorem tmod_of_decodeOp_hlt {w : Int} (hw : decodeOp w = .hlt) : tmod w 100 = w := by
  have h := packed_of_decodeOp (c := 0) rfl hw
  omega

/-- A word that is not negative has its operation and remainder as its `encode(op, a)`, where the operation is packed. -/
theorem encodeOp_decodeOp_packed {op : Op} {c : Int} (h : packedOpcode op = some c) {w : Int} (hw : decodeOp w = op)
    (h0 : 0 ≤ w) : encodeOp op (tmod w 100) = some w := by
  have hlo : 0 ≤ tmod w 100 := tmod_nonneg 100 h0
  have hhi : tmod w 100 < 100 := tmod_lt w (by decide)
  rw [encodeOp_packed h, if_pos ⟨hlo, by omega⟩, ← packed_of_decodeOp h hw]

theorem nonneg_of_decodeOp {w : Int} (hu : decodeOp w ≠ .unknown) (hh : decodeOp w ≠ .hlt) : 0 ≤ w := by
  rw [Ne, decodeOp_eq_unknown_iff] at hu
  rw [Ne, decodeOp_eq_hlt_iff] at hh
  omega

/-- The converse of R80: a word of any operation but HLT is the encoding of that operation with its remainder. -/
theorem encodeOp_decodeOp {w : Int} (hu : decodeOp w ≠ .unknown) (hh : decodeOp w ≠ .hlt) :
    encodeOp (decodeOp w) (tmod w 100) = some w := by
  rcases packedOpcode_cases (decodeOp w) with ⟨c, hc, -⟩ | hhlt | hinp | hout | hunknown
  · exact encodeOp_decodeOp_packed hc rfl (nonneg_of_decodeOp hu hh)
  · exact absurd hhlt hh
  · obtain rfl := (decodeOp_eq_inp_iff w).1 hinp
    decide
  · obtain rfl := (decodeOp_eq_out_iff w).1 hout
    decide
  · exact absurd hunknown hu

/-- A HLT word is R80's encoding of HLT exactly when it is not negative (log 19). -/
theorem encodeOp_hlt_iff {w : Int} (hw : decodeOp w = .hlt) : encodeOp .hlt (tmod w 100) = some w ↔ 0 ≤ w := by
  refine ⟨fun h => ?_, encodeOp_decodeOp_packed (c := 0) rfl hw⟩
  rw [encodeOp_packed (c := 0) rfl, tmod_of_decodeOp_hlt hw] at h
  by_contra hneg
  rw [if_neg (fun hfits => hneg hfits.1)] at h
  cases h

/-- Settles O6: a packed word splits into its opcode and operand, and the opcode alone chooses the operation. -/
theorem encodedPairsSplitBack : Obligations.EncodedPairsSplitBack := by
  refine ⟨by decide, ?_, fun a => ⟨rfl, rfl⟩, by decide, by decide, fun w => encodeOp_decodeOp, ?_⟩
  · intro op c a hc h0 h99
    obtain ⟨hq, hr⟩ := Laws.tdiv_tmod_packed rfl (packedOpcode_nonneg hc) h0 h99
    exact ⟨by rw [encodeOp_packed hc, if_pos ⟨h0, h99⟩], hq, hr, (decodeOp_eq_iff_tdiv hc _).2 hq⟩
  · intro w hlo hhi
    have hop : decodeOp w = .hlt := (decodeOp_eq_hlt_iff w).2 ⟨hlo, hhi⟩
    exact ⟨hop, encodeOp_hlt_iff hop⟩

/-- An instruction with an operand is packed with an opcode above 0, and is well formed when the operand has two digits. -/
theorem Instr.packed_of_operand {i : Instr} {t : Nat} (h : i.operand = some t) :
    (∃ c, packedOpcode i.op = some c ∧ 1 ≤ c ∧ encode i = c * 100 + t) ∧ i.wellFormed = operandFits t := by
  cases i <;> cases h <;> simp [Instr.op, packedOpcode, opcodeTable, encode, Instr.wellFormed]

/-- The operand of a decoded instruction is the remainder of its word (30_encoding.md R72). -/
theorem decode_instr_operand_eq_tmod {w : Int} {i : Instr} (h : decode w = .instr i) {t : Nat} (ht : i.operand = some t) :
    (t : Int) = tmod w 100 := by
  obtain ⟨⟨c, hc, hc1, -⟩, -⟩ := Instr.packed_of_operand ht
  have hword := packed_of_decodeOp hc (decode_instr_op h).symm
  have hgt : -100 < tmod w 100 := neg_lt_tmod w (by decide)
  have hlo : 0 ≤ tmod w 100 := tmod_nonneg 100 (by omega)
  rw [decode_instr_operand h] at ht
  split at ht
  · rw [← Option.some.inj ht, operandField, Int.toNat_of_nonneg hlo]
  · cases ht

/-- A decoded instruction with an operand is well formed and encodes to its word. -/
theorem decode_instr_of_operand {w : Int} {i : Instr} (h : decode w = .instr i) {t : Nat} (ht : i.operand = some t) :
    i.wellFormed = true ∧ encode i = w := by
  obtain ⟨⟨c, hc, -, hword⟩, hfits⟩ := Instr.packed_of_operand ht
  refine ⟨hfits.trans (decide_eq_true (decode_instr_operand_le h ht)), ?_⟩
  rw [hword, decode_instr_operand_eq_tmod h ht, ← packed_of_decodeOp hc (decode_instr_op h).symm]

/-- A HLT carries its whole word (log 19). -/
theorem decode_of_decodeOp_hlt {w : Int} (hop : decodeOp w = .hlt) : decode w = .instr (.hlt w) := by
  simp only [decode, hop, tmod_of_decodeOp_hlt hop]

theorem decode_instr_wellFormed_encode {w : Int} {i : Instr} (h : decode w = .instr i) :
    i.wellFormed = true ∧ encode i = w := by
  have hop : decodeOp w = i.op := (decode_instr_op h).symm
  cases i with
  | hlt field =>
    rw [decode_of_decodeOp_hlt hop] at h
    cases h
    exact ⟨decide_eq_true ((decodeOp_eq_hlt_iff w).1 hop), by simp [encode]⟩
  | inp => exact ⟨rfl, ((decodeOp_eq_inp_iff w).1 hop).symm⟩
  | out => exact ⟨rfl, ((decodeOp_eq_out_iff w).1 hop).symm⟩
  | add | sub | sta | lda | bra | brz | brp => exact decode_instr_of_operand h rfl

/-- Settles O8: an operand is the remainder of its word, beside the opcode of its operation; HLT carries the word itself. -/
theorem encodeOfDecodeIsTheWord : Obligations.EncodeOfDecodeIsTheWord := by
  intro w i h
  obtain ⟨hwf, hword⟩ := decode_instr_wellFormed_encode h
  exact ⟨hwf, hword, decode_instr_op h, fun t => decode_instr_operand_eq_tmod h⟩

/-- Settles O3: the decoder computes each of the words. -/
theorem writtenWordsDecodeAsTheTableSays : Obligations.WrittenWordsDecodeAsTheTableSays := by
  unfold Obligations.WrittenWordsDecodeAsTheTableSays
  decide

end Sys2Proof

/-! Proofs. The assembler accepts only words of R80's encoding (30_encoding.md R84 to R95). -/

namespace Sys2Proof

/-- What `encode(op, a)` gives is no negative word and decodes to `op` (30_encoding.md R80). -/
theorem decodeOp_of_encodeOp {op : Op} {a w : Int} (h : encodeOp op a = some w) :
    0 ≤ w ∧ decodeOp w = op ∧ op ≠ .unknown := by
  have hpacked : ∀ c, packedOpcode op = some c → 0 ≤ w ∧ decodeOp w = op := fun c hc => by
    have hc0 := packedOpcode_nonneg hc
    rw [encodeOp_packed hc] at h
    split at h
    · next ha =>
      cases h
      obtain ⟨hq, -⟩ := Laws.tdiv_tmod_packed rfl hc0 ha.1 ha.2
      exact ⟨by omega, (decodeOp_eq_iff_tdiv hc _).2 hq⟩
    · cases h
  cases op with
  | inp | out => cases h; decide
  | unknown => cases h
  | hlt | add | sub | sta | lda | bra | brz | brp =>
    obtain ⟨h0, hop⟩ := hpacked _ rfl
    exact ⟨h0, hop, nofun⟩

namespace Machine

@[simp] theorem wordOf_eq_ok_iff (op : Op) (a w : Int) : wordOf op a = .ok w ↔ encodeOp op a = some w := by
  unfold wordOf
  cases encodeOp op a <;> simp

/-- Pass 2 on one line, from a word back: a mnemonic's operation, its operand, and their encoding. -/
theorem assembleLine_eq_ok_iff (program : List Text) (line : Text) (w : Int) :
    assembleLine program line = .ok w ↔
      ∃ op rest a, splitLine (findLabel program) (tokens line) = .ok (op, rest) ∧ operandOf program op rest = .ok a ∧
        encodeOp op a = some w := by
  unfold assembleLine
  cases splitLine (findLabel program) (tokens line) with
  | error e => simp
  | ok found =>
    obtain ⟨op, rest⟩ := found
    cases hoperand : operandOf program op rest <;> simp [hoperand]

/-- Pass 2 gives the word of each line. -/
theorem assembleLines_eq_ok_iff (program lines : List Text) (words : List Int) :
    assembleLines program lines = .ok words ↔
      List.Forall₂ (fun line w => assembleLine program line = .ok w) lines words := by
  induction lines generalizing words with
  | nil => simp [assembleLines, eq_comm]
  | cons line rest ih =>
    unfold assembleLines
    cases hline : assembleLine program line with
    | error e => simp [List.forall₂_cons_left_iff, hline]
    | ok w =>
      cases hrest : assembleLines program rest with
      | error e => simp [List.forall₂_cons_left_iff, ← ih, hrest]
      | ok ws => simp [List.forall₂_cons_left_iff, ← ih, hrest, hline, eq_comm]

/-- The assembler's contract (30_encoding.md R84): a word for each line, and no more of them than cells. -/
theorem assemble_eq_ok_iff (c : Config) (program : List Text) (words : List Int) :
    assemble c program = .ok words ↔
      List.Forall₂ (fun line w => assembleLine program line = .ok w) program words ∧ words.length ≤ c.cells := by
  rw [← assembleLines_eq_ok_iff]
  unfold assemble
  cases assembleLines program program with
  | error e => simp
  | ok ws =>
    dsimp only
    split_ifs with hfits
    · rw [AsmResult.ok.injEq]
      exact ⟨fun h => ⟨h, h ▸ hfits⟩, And.left⟩
    · simp only [AsmResult.ok.injEq, false_iff, not_and]
      exact fun h => h ▸ hfits

theorem assembleLine_word {program : List Text} {line : Text} {w : Int} (h : assembleLine program line = .ok w) :
    0 ≤ w ∧ w ≤ 902 ∧ decodeOp w ≠ .unknown := by
  obtain ⟨op, -, a, -, -, hword⟩ := (assembleLine_eq_ok_iff program line w).1 h
  obtain ⟨h0, hop, hknown⟩ := decodeOp_of_encodeOp hword
  have hinstr : decodeOp w ≠ .unknown := hop ▸ hknown
  refine ⟨h0, ?_, hinstr⟩
  rw [Ne, decodeOp_eq_unknown_iff] at hinstr
  omega

/-- Settles O53: each word is R80's encoding of the operation and operand of its line, and every word above 902 is reserved. -/
theorem assembledWordsAreInstructions : Obligations.AssembledWordsAreInstructions := by
  intro c program words h
  obtain ⟨hlines, hfits⟩ := (assemble_eq_ok_iff c program words).1 h
  refine ⟨hlines.length_eq.symm, hfits, fun w hw => ?_⟩
  obtain ⟨k, hk, rfl⟩ := List.getElem_of_mem hw
  exact assembleLine_word (hlines.get (hlines.length_eq ▸ hk) hk)

end Machine

end Sys2Proof

/-! Proofs. The written form of a word, read back by the assembler (30_encoding.md R83, R85, R90): a decimal number is a run of
non-blank characters whose digits give the number back, and a line of two such runs is two tokens. -/

namespace Sys2Proof.Machine

/-- A line that begins with non-blank characters: they join the run in progress. -/
theorem tokensFrom_append {run : Text} (h : ∀ c ∈ run, isBlank c = false) (rest current : Text) :
    tokensFrom (run ++ rest) current = tokensFrom rest (run.reverse ++ current) := by
  induction run generalizing current with
  | nil => rfl
  | cons c run ih =>
    obtain ⟨hc, hrun⟩ := List.forall_mem_cons.1 h
    simp [tokensFrom, hc, ih hrun]

/-- Two runs of non-blank characters with a space between them are two tokens (30_encoding.md R85). -/
theorem tokens_two {first second : Text} (h1 : ∀ c ∈ first, isBlank c = false) (h2 : ∀ c ∈ second, isBlank c = false)
    (hne1 : first ≠ []) (hne2 : second ≠ []) : tokens (first ++ ' ' :: second) = [first, second] := by
  have hspace : isBlank ' ' = true := rfl
  have htail : tokensFrom second [] = [second] := by
    simpa [tokensFrom, hne2] using tokensFrom_append h2 [] []
  simp [tokens, tokensFrom_append h1, tokensFrom, hspace, hne1, htail]

theorem isBlank_of_isDigit {c : Char} (h : c.isDigit = true) : isBlank c = false := by
  rw [Char.isDigit_iff_toNat] at h
  have hspace : c ≠ ' ' := by rintro rfl; revert h; decide
  have htab : c ≠ '\t' := by rintro rfl; revert h; decide
  simp [isBlank, hspace, htab]

/-- Reading digits is the library's reading of them. -/
theorem parseDigits_of_isDigit {ds : Text} (h : ∀ c ∈ ds, c.isDigit = true) (n : Nat) :
    parseDigits ds n = some (Nat.ofDigitChars 10 ds n) := by
  induction ds generalizing n with
  | nil => simp [parseDigits]
  | cons c ds ih =>
    obtain ⟨hc, hds⟩ := List.forall_mem_cons.1 h
    have hvalue : digitValue c = some (c.toNat - 48) := if_pos (Char.isDigit_iff_toNat.1 hc)
    simp [parseDigits, hvalue, ih hds, Nat.ofDigitChars_cons]

theorem decimal_isDigit {n : Nat} {c : Char} (h : c ∈ decimal n) : c.isDigit = true :=
  Nat.isDigit_of_mem_toDigits (by decide) le_rfl h

theorem decimal_ne_nil (n : Nat) : decimal n ≠ [] := Nat.toDigits_ne_nil

theorem parseNatural_decimal (n : Nat) : parseNatural (decimal n) = some n := by
  rw [parseNatural, if_neg (decimal_ne_nil n), parseDigits_of_isDigit fun _ => decimal_isDigit]
  exact congrArg some Nat.ofDigitChars_ten_toDigits

/-- Without a sign an integer is a natural number. -/
theorem parseInteger_of_isDigit {t : Text} (hne : t ≠ []) (h : ∀ c ∈ t, c.isDigit = true) :
    parseInteger t = (parseNatural t).map (fun n => (n : Int)) := by
  cases t with
  | nil => exact absurd rfl hne
  | cons c rest =>
    have hc : c.isDigit = true := h c List.mem_cons_self
    have hminus : c ≠ '-' := by rintro rfl; cases hc
    have hplus : c ≠ '+' := by rintro rfl; cases hc
    rw [parseInteger, if_neg hminus, if_neg hplus]

theorem parseInteger_decimal (n : Nat) : parseInteger (decimal n) = some (n : Int) := by
  rw [parseInteger_of_isDigit (decimal_ne_nil n) fun _ => decimal_isDigit, parseNatural_decimal]
  rfl

/-- A mnemonic is a run of non-blank characters that names its operation. -/
theorem mnemonicOf_eq_some {op : Op} {name : Text} (h : mnemonicOf op = some name) :
    opOfMnemonic name = some op ∧ name ≠ [] ∧ ∀ c ∈ name, isBlank c = false := by
  cases op <;> simp [mnemonicOf, mnemonicTable] at h <;> subst h <;>
    exact ⟨by decide, by simp, by simp [isBlank]⟩

/-- The one line of a mnemonic that is no branch and a decimal operand assembles to R80's encoding of the two. -/
theorem assembleLine_mnemonic_decimal {op : Op} {name : Text} (hname : mnemonicOf op = some name)
    (hbranch : isBranchOp op = false) {t : Nat} {w : Int} (hw : encodeOp op t = some w) :
    assembleLine [name ++ ' ' :: decimal t] (name ++ ' ' :: decimal t) = .ok w := by
  obtain ⟨hop, hne, hblank⟩ := mnemonicOf_eq_some hname
  have htokens : tokens (name ++ ' ' :: decimal t) = [name, decimal t] :=
    tokens_two hblank (fun _ hc => isBlank_of_isDigit (decimal_isDigit hc)) hne (decimal_ne_nil t)
  refine (assembleLine_eq_ok_iff _ _ w).2 ⟨op, [decimal t], t, ?_, ?_, hw⟩
  · simp [findLabel, htokens, hop, splitLine, mnemonicAndRest]
  · simp [operandOf, hbranch, parseInteger_decimal]

/-- Settles O54: the written form is the mnemonic and the operand field in decimal, which the assembler reads back as the
operation and the remainder of the word. -/
theorem writtenInstructionAssemblesBack : Obligations.WrittenInstructionAssemblesBack := by
  intro c w hcells hop
  obtain ⟨⟨name, hname⟩, hoperand, hbranch, hu, hh⟩ : (∃ name, mnemonicOf (decodeOp w) = some name) ∧
      (decodeOp w).takesOperand = true ∧ isBranchOp (decodeOp w) = false ∧ decodeOp w ≠ .unknown ∧
      decodeOp w ≠ .hlt := by
    rcases hop with h | h | h | h <;> rw [h] <;> exact ⟨⟨_, rfl⟩, by decide⟩
  have hfield : (operandField w : Int) = tmod w 100 := Int.toNat_of_nonneg (tmod_nonneg 100 (nonneg_of_decodeOp hu hh))
  have hword : encodeOp (decodeOp w) (operandField w) = some w := hfield ▸ encodeOp_decodeOp hu hh
  refine ⟨name ++ ' ' :: decimal (operandField w), by simp only [disassemble, hname, hoperand, if_true], ?_⟩
  exact (assemble_eq_ok_iff c _ [w]).2 ⟨.cons (assembleLine_mnemonic_decimal hname hbranch hword) .nil, hcells⟩

end Sys2Proof.Machine

/-! Proofs. The cycle of HLT, and with it vector H2: the empty machine (30_encoding.md R78, 44_system_io.md R150). -/

namespace Sys2Proof.Machine

/-- A whole cycle of HLT: fetch and decode, and RUN cleared. -/
theorem step_hlt {s : State} {w : Int} (hw : s.AtWord w) (hop : decodeOp w = .hlt) :
    step s = .next { s.fetched w with run := .halted } :=
  step_of_instr hw (decode_of_decodeOp_hlt hop) (fun hwait => nomatch hwait.1)

/-- Settles O55: cell 0 of the empty memory is inside memory and holds 0, the word of HLT. -/
theorem emptyMachineHaltsAtOnce : Obligations.EmptyMachineHaltsAtOnce := by
  intro c items hcells
  exact ⟨{ State.initial c items with run := .running }, rfl, step_hlt (w := 0) ⟨rfl, memRead_natCast (t := 0) hcells⟩ rfl⟩

end Sys2Proof.Machine

/-! Proofs. The cycle as 40_sequencer.md sections 1 to 4 give it, read off the rules of the whole cycle: the fetch, the decoded
instruction, the operand outside memory, and the latch OP. -/

namespace Sys2Proof.Machine

/-- Settles O14: the rule of a halted machine. -/
theorem haltedMachineChangesNothing : Obligations.HaltedMachineChangesNothing := fun _ => step_of_halted

/-- Settles O13: a PC that is no cell fails the bounds test, so the fetch reads nothing. -/
theorem fetchOutsideMemoryRaisesOutOfBounds : Obligations.FetchOutsideMemoryRaisesOutOfBounds := by
  intro s hrun hpc
  have houtside : ¬ inBounds s.cfg s.pc := by
    rintro ⟨hlo, hhi⟩
    omega
  exact step_of_no_read hrun (memRead_of_not_inBounds houtside)

/-- Settles O11: the state after fetch and decode has the instruction's own operation in OP. -/
theorem stepRunsTheDecodedInstruction : Obligations.StepRunsTheDecodedInstruction := by
  intro s w i hrun hread hd hwait
  rw [decode_instr_op hd]
  exact step_of_instr ⟨hrun, hread⟩ hd hwait

/-- Settles O33: the rule of an operand outside memory. -/
theorem operandOutsideMemoryRaisesOutOfBounds : Obligations.OperandOutsideMemoryRaisesOutOfBounds :=
  fun _ _ _ => exec_of_operand_outside

/-- No instruction writes CIR or OP (10_state.md R39). -/
theorem exec_cir_op {i : Instr} {s s' : State} (hs : exec i s = .next s') : s'.cir = s.cir ∧ s'.op = s.op := by
  obtain ⟨hcir, hop, -⟩ := execWritesOnlyWhatTheMatrixNames i s s' hs
  exact ⟨hcir, hop⟩

/-- Settles O25: fetch and decode leave the word in CIR and its operation in OP, and neither the meaning of the instruction nor
the fatal condition of a reserved word writes them again. -/
theorem opIsNeverStale : Obligations.OpIsNeverStale := by
  intro s s' w hw hwait hs
  cases hd : decode w with
  | reserved r => exact Host.Outcome.next.inj ((step_of_reserved hw hd).symm.trans hs) ▸ ⟨rfl, rfl⟩
  | instr i =>
    have hnotInp : ¬ (i = .inp ∧ s.input = []) := by
      rintro ⟨rfl, hin⟩
      exact hwait ⟨decode_instr_inp hd ▸ hw, hin⟩
    exact exec_cir_op ((step_of_instr hw hd hnotInp).symm.trans hs)

end Sys2Proof.Machine

/-! Proofs. The sequencer (40_sequencer.md R111): one rule for each phase, then the phases of a whole cycle, and that the phase
HALTED and RUN = HALTED go together. -/

namespace Sys2Proof.Machine

/-- An instruction without an operand is its execute phase (40_sequencer.md R107). -/
theorem exec_of_operand_none {i : Instr} (hi : i.operand = none) (s : State) : exec i s = executeOp i.op s := by
  cases i with
  | hlt _ | inp | out => rfl
  | _ => cases hi

/-- An instruction with an operand is its operand resolution and its execute phase (40_sequencer.md R106). -/
theorem exec_of_operand_some {i : Instr} {t : Nat} (hi : i.operand = some t) (s : State) :
    exec i s = withOperand t s (executeOp i.op) := by
  cases i with
  | hlt _ | inp | out => cases hi
  | _ =>
    obtain rfl := Option.some.inj hi
    rfl

@[simp] theorem between_of_running {s : State} (h : s.run = .running) : Sequencer.between s = ⟨.fetch, s⟩ := by
  simp [Sequencer.between, h]

@[simp] theorem between_of_halted {s : State} (h : s.run = .halted) : Sequencer.between s = ⟨.halted, s⟩ := by
  simp [Sequencer.between, h]

/-- One phase and then the others. -/
theorem ticks_succ {q q' : Sequencer} (h : tick q = .next q') (k : Nat) : ticks (k + 1) q = ticks k q' := by
  simp [ticks, h]

theorem tick_fetch_of_read {s : State} {w : Int} (h : memRead s s.pc = some w) :
    tick ⟨.fetch, s⟩ = .next ⟨.decode, { s with mar := s.pc, pc := s.pc + 1, mdr := w, cir := w }⟩ := by
  simp [tick, fetch_of_read h]

theorem tick_fetch_of_no_read {s : State} (h : memRead s s.pc = none) :
    tick ⟨.fetch, s⟩ = .next ⟨.halted, raise .outOfBounds { s with mar := s.pc, pc := s.pc + 1 }⟩ := by
  simp [tick, fetch_of_no_read h]

theorem tick_resolve_of_lt {s : State} {t : Nat} (hfield : operandField s.cir = t) (h : t < s.cfg.cells) :
    tick ⟨.resolve, s⟩ = .next ⟨.execute, { s with mar := (t : Int), mdr := s.mem.read t }⟩ := by
  simp [tick, hfield, resolve_of_lt h]

theorem tick_resolve_of_not_lt {s : State} {t : Nat} (hfield : operandField s.cir = t) (h : ¬ t < s.cfg.cells) :
    tick ⟨.resolve, s⟩ = .next ⟨.halted, s.operandFault t⟩ := by
  simp [tick, hfield, resolve_of_not_lt h]

/-- An execute phase that does not wait ends between two instructions. -/
theorem tick_execute {s s' : State} (h : executeOp s.op s = .next s') (hwait : ¬ (s.op = .inp ∧ s.input = [])) :
    tick ⟨.execute, s⟩ = .next (Sequencer.between s') := by
  cases hrun : s'.run <;> simp [tick, h, phaseAfterExecute, hwait, hrun]

/-- Fetch and decode are the first two phases of a cycle; OP says whether an operand is resolved next. -/
theorem ticks_fetch_decode {s : State} {w : Int} (hw : s.AtWord w) (k : Nat) :
    ticks (k + 2) (Sequencer.between s) =
      ticks k ⟨if (decodeOp w).takesOperand then .resolve else .execute, s.fetched w⟩ := by
  obtain ⟨hrun, hread⟩ := hw
  rw [between_of_running hrun, ticks_succ (tick_fetch_of_read hread)]
  exact ticks_succ rfl k

/-- An operation without an operand is fetch, decode and execute. -/
theorem ticks_of_no_operand {s s' : State} {w : Int} (hw : s.AtWord w) (htakes : (decodeOp w).takesOperand = false)
    (hwait : ¬ (decodeOp w = .inp ∧ s.input = [])) (h : executeOp (decodeOp w) (s.fetched w) = .next s') :
    ticks 3 (Sequencer.between s) = .next (Sequencer.between s') := by
  rw [ticks_fetch_decode hw 1, htakes]
  exact ticks_succ (tick_execute h hwait) 0

/-- An operation with an operand is fetch, decode, resolve and execute, or stops in its third phase. -/
theorem ticks_of_withOperand {s s' : State} {w : Int} (hw : s.AtWord w) (htakes : (decodeOp w).takesOperand = true)
    (h : withOperand (operandField w) (s.fetched w) (executeOp (decodeOp w)) = .next s') :
    ∃ k, 1 ≤ k ∧ k ≤ 4 ∧ ticks k (Sequencer.between s) = .next (Sequencer.between s') := by
  by_cases ht : operandField w < (s.fetched w).cfg.cells
  · refine ⟨4, by decide, le_rfl, ?_⟩
    have hnotInp : decodeOp w ≠ .inp := fun hop => nomatch hop ▸ htakes
    rw [withOperand_of_lt ht] at h
    rw [ticks_fetch_decode hw 2, htakes]
    exact (ticks_succ (tick_resolve_of_lt rfl ht) 1).trans (ticks_succ (tick_execute h fun hwait => hnotInp hwait.1) 0)
  · refine ⟨3, by decide, by decide, ?_⟩
    rw [withOperand_of_not_lt ht] at h
    obtain rfl := Host.Outcome.next.inj h
    rw [ticks_fetch_decode hw 1, htakes]
    exact ticks_succ (tick_resolve_of_not_lt rfl ht) 0

theorem decode_of_decodeOp_inp {w : Int} (hop : decodeOp w = .inp) : decode w = .instr .inp := by
  simp only [decode, hop]

/-- The phases of a decoded instruction do what its meaning does after fetch and decode. -/
theorem ticks_of_exec {s s' : State} {w : Int} {i : Instr} (hw : s.AtWord w) (hd : decode w = .instr i)
    (hwait : ¬ (i = .inp ∧ s.input = [])) (hs : exec i (s.fetched w) = .next s') :
    ∃ k, 1 ≤ k ∧ k ≤ 4 ∧ ticks k (Sequencer.between s) = .next (Sequencer.between s') := by
  have hop : i.op = decodeOp w := decode_instr_op hd
  have hoperand := decode_instr_operand hd
  cases htakes : (decodeOp w).takesOperand with
  | true =>
    rw [htakes, if_pos rfl] at hoperand
    rw [exec_of_operand_some hoperand, hop] at hs
    exact ticks_of_withOperand hw htakes hs
  | false =>
    rw [htakes, if_neg Bool.false_ne_true] at hoperand
    rw [exec_of_operand_none hoperand, hop] at hs
    refine ⟨3, by decide, by decide, ticks_of_no_operand hw htakes ?_ hs⟩
    rintro ⟨hinp, hin⟩
    exact hwait ⟨Decoded.instr.inj (hd.symm.trans (decode_of_decodeOp_inp hinp)), hin⟩

/-- Settles O57: a running machine that does not wait faults on its fetch, in one phase; meets a reserved word, in three; or runs
an instruction. -/
theorem sequencerRefinesTheStep : Obligations.SequencerRefinesTheStep := by
  intro s hrun hwait
  rcases step_cases s with ⟨hhalted, -⟩ | ⟨-, hread, hstep⟩ | ⟨w, r, hw, hd, hstep⟩ | ⟨hwaits, -⟩ |
    ⟨w, i, hw, hd, hnotInp, hstep⟩
  · exact absurd (hrun.symm.trans hhalted) nofun
  · refine ⟨_, 1, hstep, le_rfl, by decide, ?_⟩
    rw [between_of_running hrun]
    exact ticks_succ (tick_fetch_of_no_read hread) 0
  · have hop : decodeOp w = .unknown := decode_reserved_op hd
    exact ⟨_, 3, hstep, by decide, by decide, ticks_of_no_operand hw (hop ▸ rfl) (hop ▸ nofun) (hop ▸ rfl)⟩
  · exact absurd hwaits hwait
  · obtain ⟨s', hs⟩ := step_answers s
    obtain ⟨k, hlo, hhi, hticks⟩ := ticks_of_exec hw hd hnotInp (hstep.symm.trans hs)
    exact ⟨s', k, hs, hlo, hhi, hticks⟩

/-- The phase is HALTED exactly while RUN = HALTED. -/
abbrev Sequencer.Agrees (q : Sequencer) : Prop := q.phase = .halted ↔ q.core.run = .halted

theorem Sequencer.agrees_of_running {q : Sequencer} (hphase : q.phase ≠ .halted) (hrun : q.core.run = .running) : q.Agrees :=
  iff_of_false hphase (hrun ▸ nofun)

theorem Sequencer.Agrees.running {q : Sequencer} (h : q.Agrees) (hphase : q.phase ≠ .halted) : q.core.run = .running := by
  cases hrun : q.core.run with
  | running => rfl
  | halted => exact absurd (h.2 hrun) hphase

theorem Sequencer.between_agrees (s : State) : (Sequencer.between s).Agrees := by
  cases hrun : s.run <;> simp [Sequencer.Agrees, hrun]

theorem phaseAfterExecute_eq_halted_iff (before after : State) :
    phaseAfterExecute before after = .halted ↔ after.run = .halted := by
  unfold phaseAfterExecute
  cases after.run with
  | halted => simp
  | running => split_ifs <;> simp

/-- The eleven execute arms all answer a next state. -/
theorem executeOp_answers (op : Op) (s : State) : ∃ s', executeOp op s = .next s' := by
  cases op with
  | add => rcases accumulate_cases (s.acc + s.mdr) s with ⟨-, h⟩ | ⟨-, -, h⟩ <;> exact ⟨_, h⟩
  | sub => rcases accumulate_cases (s.acc - s.mdr) s with ⟨-, h⟩ | ⟨-, -, h⟩ <;> exact ⟨_, h⟩
  | sta | inp =>
    simp only [executeOp, executeSta, executeInp]
    split <;> exact ⟨_, rfl⟩
  | brz | brp =>
    simp only [executeOp, executeBrz, executeBrp]
    split <;> exact ⟨_, rfl⟩
  | hlt | lda | bra | out | unknown => exact ⟨_, rfl⟩

/-- Every phase answers, and keeps the agreement of the phase with RUN: only a fatal condition and the execute phase can halt
the machine, and each goes to HALTED with it. -/
theorem tick_agrees {q : Sequencer} (hq : q.Agrees) : ∃ q', tick q = .next q' ∧ q'.Agrees := by
  obtain ⟨phase, s⟩ := q
  cases phase with
  | halted => exact ⟨_, rfl, hq⟩
  | fetch =>
    cases hread : memRead s s.pc with
    | none => exact ⟨_, tick_fetch_of_no_read hread, iff_of_true rfl rfl⟩
    | some w => exact ⟨_, tick_fetch_of_read hread, Sequencer.agrees_of_running nofun (hq.running nofun)⟩
  | decode =>
    refine ⟨_, rfl, Sequencer.agrees_of_running ?_ (hq.running nofun)⟩
    dsimp only
    split <;> exact nofun
  | resolve =>
    by_cases ht : operandField s.cir < s.cfg.cells
    · exact ⟨_, tick_resolve_of_lt rfl ht, Sequencer.agrees_of_running nofun (hq.running nofun)⟩
    · exact ⟨_, tick_resolve_of_not_lt rfl ht, iff_of_true rfl rfl⟩
  | execute =>
    obtain ⟨s', h⟩ := executeOp_answers s.op s
    exact ⟨⟨phaseAfterExecute s s', s'⟩, by simp [tick, h], phaseAfterExecute_eq_halted_iff s s'⟩

theorem hostStart_of_noFault {s : State} (hrun : s.run = .halted) (hfault : s.fault = .none) :
    hostStart s = .done { s with run := .running } := by
  simp only [hostStart, whileHalted, hrun, if_pos hfault]

theorem hostStart_of_fault {s : State} (hrun : s.run = .halted) (hfault : s.fault ≠ .none) :
    hostStart s = .refused .faultLatched := by
  simp only [hostStart, whileHalted, hrun, if_neg hfault]

theorem Sequencer.after_cycle {q q' : Sequencer} (h : tick q = .next q') : Sequencer.after .cycle q = q' := by
  simp only [Sequencer.after, h]

theorem Sequencer.after_start_of_done {q : Sequencer} {s : State} (h : hostStart q.core = .done s) :
    Sequencer.after .start q = ⟨.fetch, s⟩ := by
  simp only [Sequencer.after, h]

theorem Sequencer.after_start_of_refused {q : Sequencer} {r : HostRefusal} (h : hostStart q.core = .refused r) :
    Sequencer.after .start q = q := by
  simp only [Sequencer.after, h]

theorem Sequencer.after_assemble {q : Sequencer} {program : List Text} {reply : HostReply State}
    (h : hostAssemble program q.core = reply) :
    Sequencer.after (.assemble program) q = ⟨q.phase, reply.orElse q.core⟩ :=
  h ▸ rfl

theorem Sequencer.after_poke {q : Sequencer} {a v : Int} {reply : HostReply State} (h : hostPoke a v q.core = reply) :
    Sequencer.after (.poke a v) q = ⟨q.phase, reply.orElse q.core⟩ :=
  h ▸ rfl

/-- Everything an event can do to the sequencer: a phase, a reset, a start, or nothing to its phase and its registers. -/
theorem Sequencer.after_cases (e : Event) (q : Sequencer) :
    e = .cycle ∨ (e = .reset ∧ Sequencer.after e q = Sequencer.between (hostReset q.core)) ∨
    (e = .start ∧ Sequencer.after e q = ⟨.fetch, { q.core with run := .running }⟩) ∨
    ∃ mem input, Sequencer.after e q = ⟨q.phase, { q.core with mem := mem, input := input }⟩ := by
  cases e with
  | cycle => exact .inl rfl
  | reset => exact .inr (.inl ⟨rfl, rfl⟩)
  | start =>
    rcases hostStart_cases q.core with ⟨r, h⟩ | ⟨-, -, h⟩
    · exact .inr (.inr (.inr ⟨_, _, after_start_of_refused h⟩))
    · exact .inr (.inr (.inl ⟨rfl, after_start_of_done h⟩))
  | assemble program =>
    rcases hostAssemble_cases program q.core with ⟨r, h⟩ | ⟨words, -, -, h⟩ <;>
      exact .inr (.inr (.inr ⟨_, _, after_assemble h⟩))
  | poke a v =>
    rcases hostPoke_cases a v q.core with ⟨r, h⟩ | ⟨-, -, -, h⟩ <;>
      exact .inr (.inr (.inr ⟨_, _, after_poke h⟩))
  | inspect | input _ | inputLine _ => exact .inr (.inr (.inr ⟨_, _, rfl⟩))

/-- Every event keeps the agreement of the phase with RUN. -/
theorem Sequencer.after_agrees (e : Event) {q : Sequencer} (hq : q.Agrees) : (Sequencer.after e q).Agrees := by
  rcases after_cases e q with rfl | ⟨-, h⟩ | ⟨-, h⟩ | ⟨mem, input, h⟩
  · obtain ⟨q', htick, hq'⟩ := tick_agrees hq
    exact after_cycle htick ▸ hq'
  · exact h ▸ between_agrees (hostReset q.core)
  · exact h ▸ agrees_of_running nofun rfl
  · exact h ▸ hq

/-- Only a start leaves HALTED, and it goes to FETCH. -/
theorem Sequencer.after_of_halted {e : Event} {q : Sequencer} (hphase : q.phase = .halted)
    (hleft : (Sequencer.after e q).phase ≠ .halted) : e = .start ∧ (Sequencer.after e q).phase = .fetch := by
  rcases after_cases e q with rfl | ⟨-, h⟩ | ⟨he, h⟩ | ⟨mem, input, h⟩
  · have htick : tick q = .next q := by simp only [tick, hphase]
    exact absurd ((congrArg phase (after_cycle htick)).trans hphase) hleft
  · exact absurd (h ▸ rfl) hleft
  · exact ⟨he, h ▸ rfl⟩
  · exact absurd (h ▸ hphase) hleft

/-- Settles O59: a start is taken or refused by FAULT, a reset halts the machine and its sequencer together, and every event keeps
the agreement. -/
theorem sequencerPhaseAgreesWithRun : Obligations.SequencerPhaseAgreesWithRun := by
  refine ⟨fun s hrun => ⟨fun hfault => ?_, fun hfault => ?_⟩, fun _ => rfl,
    fun e q hq => ⟨Sequencer.after_agrees e hq, Sequencer.after_of_halted⟩⟩
  · exact Sequencer.after_start_of_done (hostStart_of_noFault hrun hfault)
  · exact Sequencer.after_start_of_refused (hostStart_of_fault hrun hfault)

end Sys2Proof.Machine

/-! Proofs. ADD and SUB (41_arithmetic.md): the accumulation under each overflow policy, the two meanings on an operand in memory,
then their whole cycles and that SUB undoes ADD. -/

namespace Sys2Proof.Machine

/-- The default policy: ACC takes the wrapped result and no fatal condition is raised (41_arithmetic.md R122, D2). -/
theorem accumulate_of_wrap {s : State} {exact : Int} (hpolicy : s.cfg.overflow = .wrap) :
    accumulate exact s = .next { s with acc := wrap s.cfg exact } := by
  rcases accumulate_cases exact s with ⟨-, ha⟩ | ⟨hfault, -⟩
  · rw [ha, if_pos hpolicy]
  · cases hpolicy.symm.trans hfault

/-- The policy `fault`, on a result that a word holds. -/
theorem accumulate_of_inRange {s : State} {exact : Int} (hpolicy : s.cfg.overflow = .fault) (hfits : s.cfg.InRange exact) :
    accumulate exact s = .next { s with acc := exact } := by
  rcases accumulate_cases exact s with ⟨-, ha⟩ | ⟨-, hover, -⟩
  · rw [ha, if_neg (by simp [hpolicy])]
  · exact absurd hfits hover

/-- The policy `fault`, on a result that no word holds (log 10). -/
theorem accumulate_of_not_inRange {s : State} {exact : Int} (hpolicy : s.cfg.overflow = .fault)
    (hover : ¬ s.cfg.InRange exact) : accumulate exact s = .next (raise .overflow s) := by
  rcases accumulate_cases exact s with ⟨hfits, -⟩ | ⟨-, -, ha⟩
  · exact absurd (hfits hpolicy) hover
  · exact ha

theorem exec_add_of_lt {s : State} {t : Nat} (hcell : t < s.cfg.cells) :
    exec (.add t) s = accumulate (s.acc + s.mem.read t) { s with mar := (t : Int), mdr := s.mem.read t } :=
  withOperand_of_lt hcell executeAdd

theorem exec_sub_of_lt {s : State} {t : Nat} (hcell : t < s.cfg.cells) :
    exec (.sub t) s = accumulate (s.acc - s.mem.read t) { s with mar := (t : Int), mdr := s.mem.read t } :=
  withOperand_of_lt hcell executeSub

/-- Settles O29: the operand is resolved, and under the policy `wrap` the accumulation completes. -/
theorem execArithmeticCompletes : Obligations.ExecArithmeticCompletes := by
  intro s t hcell hpolicy
  rw [exec_add_of_lt hcell, exec_sub_of_lt hcell]
  exact ⟨accumulate_of_wrap hpolicy, accumulate_of_wrap hpolicy⟩

/-- Settles O34: the operand is resolved, and under the policy `fault` the accumulation completes exactly on a word. -/
theorem overflowPolicyFaultStopsOnlyOnOverflow : Obligations.OverflowPolicyFaultStopsOnlyOnOverflow := by
  intro s t hcell hpolicy
  rw [exec_add_of_lt hcell, exec_sub_of_lt hcell]
  exact ⟨fun hfits => accumulate_of_inRange hpolicy hfits, fun hover => accumulate_of_not_inRange hpolicy hover,
    fun hfits => accumulate_of_inRange hpolicy hfits, fun hover => accumulate_of_not_inRange hpolicy hover⟩

/-- The word 100 + t is ADD t (30_encoding.md R74). -/
theorem decode_add {t : Nat} (ht : t ≤ 99) : decode (100 + t) = .instr (.add t) := by
  simpa [encode] using decodeOfEncodeIsTheInstruction (.add t) (decide_eq_true ht)

/-- The word 200 + t is SUB t (30_encoding.md R74). -/
theorem decode_sub {t : Nat} (ht : t ≤ 99) : decode (200 + t) = .instr (.sub t) := by
  simpa [encode] using decodeOfEncodeIsTheInstruction (.sub t) (decide_eq_true ht)

/-- Settles O17: after fetch and decode the cycle is the meaning of ADD, which completes on a cell and stops outside memory. -/
theorem addCycle : Obligations.AddCycle := by
  intro s t ht ⟨hrun, hread⟩ hpolicy
  rw [stepRunsTheDecodedInstruction s _ _ hrun hread (decode_add ht) nofun]
  refine ⟨fun hcell => (execArithmeticCompletes _ t ?_ ?_).1, fun hout => exec_of_operand_outside rfl hout⟩
  · exact hcell
  · exact hpolicy

/-- Settles O18: after fetch and decode the cycle is the meaning of SUB, which completes on a cell and stops outside memory. -/
theorem subCycle : Obligations.SubCycle := by
  intro s t ht ⟨hrun, hread⟩ hpolicy
  rw [stepRunsTheDecodedInstruction s _ _ hrun hread (decode_sub ht) nofun]
  refine ⟨fun hcell => (execArithmeticCompletes _ t ?_ ?_).2, fun hout => exec_of_operand_outside rfl hout⟩
  · exact hcell
  · exact hpolicy

/-- Subtracting what was added gives the word back, whether or not the sum wrapped: the two differ by a multiple of `2^W`, and
only one word does (00_scope.md R9). -/
theorem wrap_wrap_add_sub {c : Config} (hwidth : 1 ≤ c.width) {x : Int} (hx : c.InRange x) (v : Int) :
    wrap c (wrap c (x + v) - v) = x := by
  obtain ⟨-, hdvd⟩ := (wrap_eq_iff hwidth (x + v) _).1 rfl
  have hdiff : x - (wrap c (x + v) - v) = -(wrap c (x + v) - (x + v)) := by ring
  exact (wrap_eq_iff hwidth _ x).2 ⟨hx, hdiff ▸ hdvd.neg_right⟩

/-- Settles O41: ADD leaves the parameters and the cell alone, so SUB subtracts what ADD added. -/
theorem addThenSubRestoresAcc : Obligations.AddThenSubRestoresAcc := by
  intro s s1 t hwidth hpolicy hacc hcell hadd
  obtain rfl := Host.Outcome.next.inj ((execArithmeticCompletes s t hcell hpolicy).1.symm.trans hadd)
  refine ⟨_, (execArithmeticCompletes _ t ?_ ?_).2, wrap_wrap_add_sub hwidth hacc _⟩
  · exact hcell
  · exact hpolicy

end Sys2Proof.Machine

/-! Proofs. LDA and STA (42_load_store.md): the two meanings on an operand in memory, their whole cycles, and the one cell that a
store can be read back from. -/

namespace Sys2Proof.Machine

/-- Settles O30: with its operand in memory, LDA and STA each have their one effect. -/
theorem execLoadStoreCompletes : Obligations.ExecLoadStoreCompletes := by
  intro s t hcell
  have hin : ∀ a, some t = some a → a < s.cfg.cells := fun a ha => Option.some.inj ha ▸ hcell
  exact ⟨exec_of_effect (i := .lda t) hin rfl, exec_of_effect (i := .sta t) hin rfl⟩

/-- The word 500 + t is LDA t (30_encoding.md R74). -/
theorem decode_lda {t : Nat} (ht : t ≤ 99) : decode (500 + t) = .instr (.lda t) := by
  simpa [encode] using decodeOfEncodeIsTheInstruction (.lda t) (decide_eq_true ht)

/-- Settles O19: after fetch and decode the cycle is the meaning of LDA, which completes on a cell; outside memory the fatal
condition is raised with the operand in MAR and ACC untouched. -/
theorem ldaCycle : Obligations.LdaCycle := by
  intro s t ht ⟨hrun, hread⟩
  rw [stepRunsTheDecodedInstruction s _ _ hrun hread (decode_lda ht) nofun]
  refine ⟨fun hcell => (execLoadStoreCompletes _ t ?_).1,
    fun hout => ⟨{ s.fetched (500 + t) with mar := t, op := .lda }, exec_of_operand_outside rfl hout, rfl, rfl⟩⟩
  exact hcell

/-- Settles O20: after fetch and decode the cycle is the meaning of STA, which completes on a cell and stops outside memory; what
the cells read as afterwards is the rule of reading after a write. -/
theorem staCycle : Obligations.StaCycle := by
  intro s t ht ⟨hrun, hread⟩ hm
  rw [stepRunsTheDecodedInstruction s _ _ hrun hread (decode_sta ht) nofun]
  refine ⟨fun hcell => ⟨s.mem.write t s.acc, (execLoadStoreCompletes _ t ?_).2, Memory.wf_write hm t s.acc, ?_,
    fun a ha => ?_⟩, fun hout => exec_of_operand_outside rfl hout⟩
  · exact hcell
  · rw [Memory.read_write hm, if_pos rfl]
  · rw [Memory.read_write hm, if_neg ha]

/-- A read, at any address, once a cell of a canonical memory has been written: the two addresses are the same or the write is not
seen (20_memory.md R56). -/
theorem memRead_of_write {s s' : State} {t : Nat} {v : Int} (hm : Memory.wf s.mem = true) (hcell : t < s.cfg.cells)
    (hcfg : s'.cfg = s.cfg) (hmem : s'.mem = s.mem.write t v) (a : Int) :
    memRead s' a = if a = t then some v else memRead s a := by
  by_cases hb : inBounds s.cfg a
  · have haddress : a.toNat = t ↔ a = t := by
      obtain ⟨hlo, -⟩ := hb
      omega
    rw [memRead_of_inBounds (hcfg ▸ hb), memRead_of_inBounds hb, hmem, Memory.read_write hm, apply_ite some]
    exact if_congr haddress rfl rfl
  · have hother : a ≠ t := fun ha => hb (ha ▸ inBounds_natCast.2 hcell)
    rw [memRead_of_not_inBounds (hcfg ▸ hb), memRead_of_not_inBounds hb, if_neg hother]

/-- Settles O37: at a cell STA writes that cell and nothing else a read can see; outside memory it stops with the memory as it
was, and the operand is still no cell. -/
theorem staWritesItsCellOnly : Obligations.StaWritesItsCellOnly := by
  intro s s' t hm hs
  by_cases hcell : t < s.cfg.cells
  · have hnext := Host.Outcome.next.inj (hs.symm.trans (execLoadStoreCompletes s t hcell).2)
    have hread : ∀ a : Int, memRead s' a = if a = t then some s.acc else memRead s a :=
      memRead_of_write hm hcell (by rw [hnext]) (by rw [hnext])
    subst hnext
    refine ⟨fun a ha => ?_, ?_, Memory.wf_write hm t s.acc, rfl, rfl, rfl, rfl, rfl, rfl⟩
    · rw [hread, if_neg ha]
    · rw [hread, if_pos rfl, if_pos hcell]
  · obtain rfl := Host.Outcome.next.inj ((exec_of_operand_outside rfl (not_lt.1 hcell)).symm.trans hs)
    refine ⟨fun a _ => memRead_congr rfl rfl a, ?_, hm, rfl, rfl, rfl, rfl, rfl, rfl⟩
    rw [if_neg hcell]
    exact memRead_of_not_inBounds (mt inBounds_natCast.1 hcell)

end Sys2Proof.Machine

/-! Proofs. BRA, BRZ and BRP (43_branch.md): the three meanings on a target in memory, the stop at a target outside it, and their
whole cycles. -/

namespace Sys2Proof.Machine

/-- Settles O31: with its target in memory, each branch has its one effect. -/
theorem execBranchesComplete : Obligations.ExecBranchesComplete := by
  intro s t hcell
  have hin : ∀ a, some t = some a → a < s.cfg.cells := fun a ha => Option.some.inj ha ▸ hcell
  exact ⟨exec_of_effect (i := .bra t) hin rfl, exec_of_effect (i := .brz t) hin rfl, exec_of_effect (i := .brp t) hin rfl⟩

/-- The word 600 + t is BRA t (30_encoding.md R74). -/
theorem decode_bra {t : Nat} (ht : t ≤ 99) : decode (600 + t) = .instr (.bra t) := by
  simpa [encode] using decodeOfEncodeIsTheInstruction (.bra t) (decide_eq_true ht)

/-- The word 700 + t is BRZ t (30_encoding.md R74). -/
theorem decode_brz {t : Nat} (ht : t ≤ 99) : decode (700 + t) = .instr (.brz t) := by
  simpa [encode] using decodeOfEncodeIsTheInstruction (.brz t) (decide_eq_true ht)

/-- The word 800 + t is BRP t (30_encoding.md R74). -/
theorem decode_brp {t : Nat} (ht : t ≤ 99) : decode (800 + t) = .instr (.brp t) := by
  simpa [encode] using decodeOfEncodeIsTheInstruction (.brp t) (decide_eq_true ht)

/-- A cycle whose operand lies outside memory stops in operand resolution: only the fetch and MAR come before the fatal condition,
so a branch has not looked at its condition (60_exceptions.md R176; D6, D7). -/
theorem step_of_operand_outside {s : State} {w : Int} {i : Instr} {t : Nat} (hw : s.AtWord w) (hd : decode w = .instr i)
    (hi : i.operand = some t) (hout : s.cfg.cells ≤ t) :
    step s = .next (raise .outOfBounds { s.fetched w with mar := (t : Int) }) := by
  have hnotInp : ¬ (i = .inp ∧ s.input = []) := fun hwait => nomatch hwait.1 ▸ hi
  rw [step_of_instr hw hd hnotInp]
  exact exec_of_operand_outside hi hout

/-- Settles O21: after fetch and decode the cycle is the meaning of BRA, which completes on a cell and stops outside memory with
PC one further. -/
theorem braCycle : Obligations.BraCycle := by
  intro s t ht ⟨hrun, hread⟩
  refine ⟨fun hcell => ?_, fun hout => ?_⟩
  · obtain ⟨hbra, -, -⟩ := execBranchesComplete { s.fetched (600 + t) with op := .bra } t hcell
    exact (stepRunsTheDecodedInstruction s _ _ hrun hread (decode_bra ht) nofun).trans hbra
  · exact ⟨_, step_of_operand_outside ⟨hrun, hread⟩ (decode_bra ht) rfl hout, rfl, rfl, rfl⟩

/-- Settles O22: after fetch and decode the cycle is the meaning of BRZ, which completes on a cell, taken or not, and stops
outside memory before its condition is looked at. -/
theorem brzCycle : Obligations.BrzCycle := by
  intro s t ht ⟨hrun, hread⟩
  refine ⟨fun hcell => ?_, fun hout => ?_⟩
  · obtain ⟨-, hbrz, -⟩ := execBranchesComplete { s.fetched (700 + t) with op := .brz } t hcell
    exact (stepRunsTheDecodedInstruction s _ _ hrun hread (decode_brz ht) nofun).trans hbrz
  · exact ⟨_, step_of_operand_outside ⟨hrun, hread⟩ (decode_brz ht) rfl hout, rfl, rfl, rfl⟩

/-- Settles O23: after fetch and decode the cycle is the meaning of BRP, which completes on a cell, taken or not, and stops
outside memory before its condition is looked at. -/
theorem brpCycle : Obligations.BrpCycle := by
  intro s t ht ⟨hrun, hread⟩
  refine ⟨fun hcell => ?_, fun hout => ?_⟩
  · obtain ⟨-, -, hbrp⟩ := execBranchesComplete { s.fetched (800 + t) with op := .brp } t hcell
    exact (stepRunsTheDecodedInstruction s _ _ hrun hread (decode_brp ht) nofun).trans hbrp
  · exact ⟨_, step_of_operand_outside ⟨hrun, hread⟩ (decode_brp ht) rfl hout, rfl, rfl, rfl⟩

end Sys2Proof.Machine

/-! Proofs. HLT, INP and OUT (44_system_io.md): their meanings, their whole cycles, the stop at an unrecognised word, and the INP
that waits, seen from outside (R153) and by the sequencer. -/

namespace Sys2Proof.Machine

/-- The state after fetch and decode, with the operation that the decoder found in OP. -/
theorem fetched_of_decodeOp {w : Int} {op : Op} (hop : decodeOp w = op) (s : State) :
    s.fetched w = { s with pc := s.pc + 1, mar := s.pc, mdr := w, cir := w, op := op } :=
  hop ▸ rfl

/-- A word without an operation is reserved, under some reason (30_encoding.md R77). -/
theorem decode_of_decodeOp_unknown {w : Int} (hop : decodeOp w = .unknown) : decode w = .reserved (reservedReason w) :=
  (decode_eq_reserved_iff w _).2 ⟨hop, rfl⟩

/-- Settles O12: each of these words is without an operation, so its cycle raises `UnknownOpcode` after fetch and decode. -/
theorem unrecognisedWordRaisesUnknownOpcode : Obligations.UnrecognisedWordRaisesUnknownOpcode := by
  intro s w hw hrange
  have hop : decodeOp w = .unknown := (decodeOp_eq_unknown_iff w).2 hrange
  rw [step_of_reserved hw (decode_of_decodeOp_unknown hop), fetched_of_decodeOp hop]
  rfl

/-- Settles O26: each of these words is a HLT, whose cycle is fetch, decode and the write of RUN. -/
theorem hltCycle : Obligations.HltCycle := by
  intro s w hlo hhi hw
  have hop : decodeOp w = .hlt := (decodeOp_eq_hlt_iff w).2 ⟨hlo, hhi⟩
  rw [step_hlt hw hop, fetched_of_decodeOp hop]

/-- OUT emits ACC in every state (44_system_io.md R154; D14, log 8). -/
theorem exec_out (s : State) : exec .out s = .next { s with output := s.output ++ [s.acc] } := exec_of_effect nofun rfl

/-- HLT clears RUN in every state, whatever its ignored digits (44_system_io.md R150). -/
theorem exec_hlt (field : Int) (s : State) : exec (.hlt field) s = .next { s with run := .halted } :=
  exec_of_effect nofun rfl

/-- Settles O32: none of the three has an operand, so each has its one effect; INP takes the item that is there. -/
theorem execSystemCompletes : Obligations.ExecSystemCompletes :=
  fun s field _ _ => ⟨exec_hlt field s, exec_inp_of_cons, exec_out s⟩

theorem decode_inp : decode 901 = .instr .inp := decode_of_decodeOp_inp ((decodeOp_eq_inp_iff 901).2 rfl)

theorem decode_out : decode 902 = .instr .out := decodeOfEncodeIsTheInstruction .out rfl

/-- A whole cycle of INP with an item there. -/
theorem step_inp_of_cons {s : State} {item : InputItem} {rest : List InputItem} (hw : s.AtWord 901)
    (hin : s.input = item :: rest) : step s = .next { s.fetched 901 with acc := item.value, input := rest } := by
  have hready : ¬ (Instr.inp = .inp ∧ s.input = []) := by simp [hin]
  rw [step_of_instr hw decode_inp hready]
  exact exec_inp_of_cons (s := s.fetched 901) hin

/-- Settles O27: the value of the item taken is its number, or 0 for a malformed one. -/
theorem inpCycle : Obligations.InpCycle :=
  fun _ _ hw => ⟨fun _ hin => step_inp_of_cons hw hin, fun hin => step_inp_of_cons hw hin⟩

/-- Settles O28: after fetch and decode the cycle is the meaning of OUT. -/
theorem outCycle : Obligations.OutCycle := by
  intro s hw
  rw [step_of_instr hw decode_out nofun]
  exact exec_out (s.fetched 902)

/-- An item supplied to an empty channel is the whole channel. -/
theorem supplyInput_of_empty {s : State} (hin : s.input = []) (item : InputItem) :
    (supplyInput item s).input = [item.fitted s.cfg] := by
  simp [hin]

/-- A waiting INP completes in the first cycle after an item arrives, and has used it up (44_system_io.md R153). -/
theorem step_supplyInput_of_waits {s : State} (h : s.Waits) (item : InputItem) :
    step (supplyInput item s) = .next { s.fetched 901 with acc := (item.fitted s.cfg).value } := by
  obtain ⟨hw, hin⟩ := h
  rw [step_inp_of_cons (s := supplyInput item s) hw (supplyInput_of_empty hin item), ← hin]
  rfl

/-- The channel admits a number in range as it is (10_state.md R34). -/
theorem fitted_of_inRange {c : Config} {v : Int} (hv : c.InRange v) : (InputItem.int v).fitted c = .int v := if_pos hv

/-- Settles O15: an INP that waits keeps the state, and completes with the value of the item as the channel admitted it. -/
theorem waitingInpHoldsUntilAnItemArrives : Obligations.WaitingInpHoldsUntilAnItemArrives := by
  intro s hw hin
  refine ⟨step_of_waits ⟨hw, hin⟩, fun v hv => ?_, step_supplyInput_of_waits ⟨hw, hin⟩ .malformed⟩
  rw [step_supplyInput_of_waits ⟨hw, hin⟩, fitted_of_inRange hv]
  rfl

/-- The execute phase of an INP with nothing to take is held (40_sequencer.md R111, 44_system_io.md R153). -/
theorem tick_execute_of_waiting {s : State} (hrun : s.run = .running) (hop : s.op = .inp) (hin : s.input = []) :
    tick ⟨.execute, s⟩ = .next ⟨.execute, s⟩ := by
  have hexec : executeOp s.op s = .next s := by simp only [hop, executeOp, executeInp, hin]
  have hphase : phaseAfterExecute s s = .execute := by simp [phaseAfterExecute, hrun, hop, hin]
  simp only [tick, hexec, hphase]

/-- The execute phase of an INP with an item there ends the cycle. -/
theorem tick_execute_inp_of_cons {s : State} {item : InputItem} {rest : List InputItem} (hop : s.op = .inp)
    (hin : s.input = item :: rest) :
    tick ⟨.execute, s⟩ = .next (Sequencer.between { s with acc := item.value, input := rest }) := by
  have hexec : executeOp s.op s = .next { s with acc := item.value, input := rest } := hop ▸ exec_inp_of_cons hin
  exact tick_execute hexec (by simp [hin])

/-- Settles O58: two phases do the fetch and decode, the third is held while the channel is empty, and once an item arrives it
takes the item, as the step does. -/
theorem sequencerShowsTheWaitingInp : Obligations.SequencerShowsTheWaitingInp := by
  intro s hw hin waiting
  refine ⟨ticks_fetch_decode hw 0, tick_execute_of_waiting hw.1 rfl hin,
    fun item => ⟨_, step_supplyInput_of_waits ⟨hw, hin⟩ item, ?_⟩⟩
  have harrived : (supplyInput item waiting.core).input = [item.fitted s.cfg] := supplyInput_of_empty hin item
  have htick := tick_execute_inp_of_cons (s := supplyInput item waiting.core) rfl harrived
  rw [← hin] at htick
  exact htick

end Sys2Proof.Machine

/-! Proofs. The outside world (44_system_io.md R155): which cycles change a channel, and that a cycle which does not use a channel
does not see what it holds. -/

namespace Sys2Proof.Machine

/-- INP is the one instruction that changes the input channel: it takes the first item into ACC. -/
theorem exec_takes {i : Instr} {s s' : State} (hs : exec i s = .next s') (hne : s'.input ≠ s.input) :
    i = .inp ∧ ∃ item, s.input = item :: s'.input ∧ s'.acc = item.value := by
  obtain ⟨-, -, -, -, -, -, hframe, -⟩ := execWritesOnlyWhatTheMatrixNames i s s' hs
  cases i with
  | inp =>
    obtain ⟨s1, he, heff⟩ := exec_of_operand_inside (i := .inp) (s := s) nofun
    obtain rfl := Host.Outcome.next.inj (he.symm.trans hs)
    rcases heff with ⟨-, rfl⟩ | ⟨item, rest, hitem, rfl⟩
    · exact absurd rfl hne
    · exact ⟨rfl, item, hitem, rfl⟩
  | _ => exact absurd (hframe nofun) hne

/-- OUT is the one instruction that changes the output channel: it appends ACC. -/
theorem exec_emits {i : Instr} {s s' : State} (hs : exec i s = .next s') (hne : s'.output ≠ s.output) :
    i = .out ∧ s'.output = s.output ++ [s.acc] := by
  obtain ⟨-, -, -, -, -, -, -, hframe, -⟩ := execWritesOnlyWhatTheMatrixNames i s s' hs
  cases i with
  | out => exact ⟨rfl, Host.Outcome.next.inj ((exec_out s).symm.trans hs) ▸ rfl⟩
  | _ => exact absurd (hframe nofun) hne

/-- A cycle that changes a channel has run an instruction. -/
theorem step_ran_of_channel_ne {s s' : State} (hs : step s = .next s')
    (hne : s'.input ≠ s.input ∨ s'.output ≠ s.output) :
    ∃ w i, s.AtWord w ∧ decode w = .instr i ∧ exec i (s.fetched w) = .next s' := by
  rcases step_cases s with ⟨-, h⟩ | ⟨-, -, h⟩ | ⟨w, r, -, -, h⟩ | ⟨-, h⟩ | ⟨w, i, hw, hd, -, h⟩
  iterate 4
    obtain rfl := Host.Outcome.next.inj (h.symm.trans hs)
    simp at hne
  exact ⟨w, i, hw, hd, h.symm.trans hs⟩

/-- A cycle that changes the input channel is an INP. -/
theorem step_takes {s s' : State} (hs : step s = .next s') (hne : s'.input ≠ s.input) :
    s.AtWord 901 ∧ ∃ item, s.input = item :: s'.input ∧ s'.acc = item.value := by
  obtain ⟨w, i, hw, hd, he⟩ := step_ran_of_channel_ne hs (.inl hne)
  obtain ⟨rfl, htaken⟩ := exec_takes he hne
  exact ⟨decode_instr_inp hd ▸ hw, htaken⟩

/-- Only the sentinel word 902 is an OUT. -/
theorem decode_instr_out {w : Int} (h : decode w = .instr .out) : w = 902 :=
  (decodeOp_eq_out_iff w).1 (decode_instr_op h).symm

/-- A cycle that changes the output channel is an OUT. -/
theorem step_emits {s s' : State} (hs : step s = .next s') (hne : s'.output ≠ s.output) :
    s.AtWord 902 ∧ s'.output = s.output ++ [s.acc] := by
  obtain ⟨w, i, hw, hd, he⟩ := step_ran_of_channel_ne hs (.inr hne)
  obtain ⟨rfl, hemitted⟩ := exec_emits he hne
  exact ⟨decode_instr_out hd ▸ hw, hemitted⟩

/-- The state with the content of its two channels exchanged for other content. -/
def State.mapChannels (f : List InputItem → List InputItem) (g : List Int → List Int) (s : State) : State :=
  { s with input := f s.input, output := g s.output }

section
variable {f : List InputItem → List InputItem} {g : List Int → List Int} {s s' : State}

/-- An accumulation sees neither channel. -/
theorem accumulate_mapChannels {exact : Int} (h : accumulate exact s = .next s') :
    accumulate exact (s.mapChannels f g) = .next (s'.mapChannels f g) := by
  cases hpolicy : s.cfg.overflow with
  | wrap =>
    obtain rfl := Host.Outcome.next.inj ((accumulate_of_wrap hpolicy).symm.trans h)
    exact accumulate_of_wrap hpolicy
  | fault =>
    by_cases hfits : s.cfg.InRange exact
    · obtain rfl := Host.Outcome.next.inj ((accumulate_of_inRange hpolicy hfits).symm.trans h)
      exact accumulate_of_inRange hpolicy hfits
    · obtain rfl := Host.Outcome.next.inj ((accumulate_of_not_inRange hpolicy hfits).symm.trans h)
      exact accumulate_of_not_inRange hpolicy hfits

/-- An instruction sees the input channel only as an INP and the output channel only as an OUT. -/
theorem exec_mapChannels {i : Instr} (hs : exec i s = .next s') (hf : i = .inp → f = id) (hg : i = .out → g = id) :
    exec i (s.mapChannels f g) = .next (s'.mapChannels f g) := by
  rcases exec_cases i s with ⟨t, hi, ht, he⟩ | ⟨hin, s1, he, heff⟩ <;>
    obtain rfl := Host.Outcome.next.inj (he.symm.trans hs)
  · exact exec_of_operand_outside hi ht
  · refine exec_of_effect hin ?_
    cases i with
    | add t | sub t => exact accumulate_mapChannels heff
    | inp =>
      obtain rfl := hf rfl
      rcases heff with ⟨hempty, rfl⟩ | ⟨item, rest, hitem, rfl⟩
      · exact .inl ⟨hempty, rfl⟩
      · exact .inr ⟨item, rest, hitem, rfl⟩
    | out =>
      obtain rfl := hg rfl
      obtain rfl : s1 = _ := heff
      rfl
    | _ =>
      obtain rfl : s1 = _ := heff
      rfl

/-- A cycle sees the input channel only at the word of INP and the output channel only at the word of OUT. -/
theorem step_mapChannels (hs : step s = .next s') (hf : s.AtWord 901 → f = id) (hg : s.AtWord 902 → g = id) :
    step (s.mapChannels f g) = .next (s'.mapChannels f g) := by
  rcases step_cases s with ⟨hrun, h⟩ | ⟨hrun, hread, h⟩ | ⟨w, r, hw, hd, h⟩ | ⟨⟨hw, hempty⟩, h⟩ | ⟨w, i, hw, hd, hwait, h⟩
  · obtain rfl := Host.Outcome.next.inj (h.symm.trans hs)
    exact step_of_halted hrun
  · obtain rfl := Host.Outcome.next.inj (h.symm.trans hs)
    exact step_of_no_read hrun hread
  · obtain rfl := Host.Outcome.next.inj (h.symm.trans hs)
    exact step_of_reserved hw hd
  · obtain rfl := Host.Outcome.next.inj (h.symm.trans hs)
    obtain rfl := hf hw
    exact step_of_waits ⟨hw, hempty⟩
  · have hfi : i = .inp → f = id := by
      rintro rfl
      exact hf (decode_instr_inp hd ▸ hw)
    have hgi : i = .out → g = id := by
      rintro rfl
      exact hg (decode_instr_out hd ▸ hw)
    have hwait' : ¬ (i = .inp ∧ (s.mapChannels f g).input = []) := by
      rintro ⟨rfl, hempty⟩
      obtain rfl := hfi rfl
      exact hwait ⟨rfl, hempty⟩
    rw [step_of_instr (s := s.mapChannels f g) hw hd hwait']
    exact exec_mapChannels (s := s.fetched w) (h.symm.trans hs) hfi hgi

end

/-- Settles O38: a cycle that changes a channel is its instruction's, and one of any other word sees nothing of what the channel
holds: replacing that content and keeping the other channel gives the same cycle. -/
theorem onlyInpAndOutTouchTheOutside : Obligations.OnlyInpAndOutTouchTheOutside := by
  intro s s' hs
  refine ⟨step_takes hs, step_emits hs, fun hnot items => ?_, fun hnot outs => ?_⟩
  · exact step_mapChannels (f := fun _ => items) (g := id) hs (fun hw => absurd hw hnot) fun _ => rfl
  · exact step_mapChannels (f := id) (g := fun _ => outs) hs (fun _ => rfl) fun hw => absurd hw hnot

end Sys2Proof.Machine

/-! Proofs. The operand fault (60_exceptions.md R176, second row): the instruction behind a packed word, and the state in which its
operand outside memory stops it. -/

namespace Sys2Proof.Machine

/-- The packed operations other than HLT are the seven whose instructions take an operand (30_encoding.md R74, R79). -/
theorem exists_instr_of_packedOpcode {op : Op} {c : Int} (hc : packedOpcode op = some c) (hhlt : op ≠ .hlt) (t : Nat) :
    ∃ i : Instr, i.op = op ∧ i.operand = some t := by
  cases op with
  | hlt => exact absurd rfl hhlt
  | add => exact ⟨.add t, rfl, rfl⟩
  | sub => exact ⟨.sub t, rfl, rfl⟩
  | sta => exact ⟨.sta t, rfl, rfl⟩
  | lda => exact ⟨.lda t, rfl, rfl⟩
  | bra => exact ⟨.bra t, rfl, rfl⟩
  | brz => exact ⟨.brz t, rfl, rfl⟩
  | brp => exact ⟨.brp t, rfl, rfl⟩
  | inp | out | unknown => cases hc

/-- The word of an opcode other than HLT's and a two-digit operand decodes to that operation with that operand. -/
theorem exists_decode_of_packedOpcode {op : Op} {c : Int} (hc : packedOpcode op = some c) (hhlt : op ≠ .hlt) {t : Nat}
    (ht : t ≤ 99) : ∃ i : Instr, decode (c * 100 + t) = .instr i ∧ i.op = op ∧ i.operand = some t := by
  obtain ⟨i, rfl, hi⟩ := exists_instr_of_packedOpcode hc hhlt t
  obtain ⟨⟨c', hc', -, hword⟩, hfits⟩ := Instr.packed_of_operand hi
  obtain rfl : c = c' := Option.some.inj (hc.symm.trans hc')
  refine ⟨i, ?_, rfl, hi⟩
  rw [← hword]
  exact decodeOfEncodeIsTheInstruction i (hfits.trans (decide_eq_true ht))

/-- Settles O24: the word decodes to the operation with `t` as its operand, so the cycle stops in operand resolution with only the
fetch, the decode and MAR done. -/
theorem operandFaultStopsTheCycle : Obligations.OperandFaultStopsTheCycle := by
  intro s op c t hc hhlt ht hw hout
  obtain ⟨i, hd, hop, hi⟩ := exists_decode_of_packedOpcode hc hhlt ht
  have hdecoded : decodeOp (c * 100 + t) = op := (decode_instr_op hd).symm.trans hop
  rw [step_of_operand_outside hw hd hi hout, fetched_of_decodeOp hdecoded]
  rfl

end Sys2Proof.Machine

/-! Proofs. The invariant `State.Wf` under the host and the input provider (70_reset_and_hazards.md R203 to R209): each of their
operations rewrites the memory, the channel or RUN of a well-formed state, or starts again from reset. -/

namespace Sys2Proof

/-- Every word from 0 to 902, and with it every instruction word the assembler gives, fits a cell (00_scope.md R6). -/
theorem Config.Legal.inRange_instructionWord {c : Config} (h : c.Legal) {w : Int} (h0 : 0 ≤ w) (hw : w ≤ 902) :
    c.InRange w := by
  have hmin := c.minWord_eq
  have hmax := h.maxWord_ge
  constructor <;> omega

namespace Machine

/-- An item admitted once is admitted as it is (10_state.md R34, D12). -/
theorem InputItem.fitted_fits (c : Config) (item : InputItem) : (item.fitted c).Fits c := by
  cases item with
  | malformed => rfl
  | int v =>
    by_cases hv : c.InRange v
    · rw [fitted_of_inRange hv]
      exact fitted_of_inRange hv
    · have hrejected : (InputItem.int v).fitted c = .malformed := if_neg hv
      rw [hrejected]
      rfl

/-- The item of a textual line is one the channel may hold (44_system_io.md R158). -/
theorem readInputLine_fits (c : Config) (line : Text) : (readInputLine c line).Fits c := by
  unfold readInputLine
  split
  · exact InputItem.fitted_fits c _
  · rfl

/-- What a successful assembly writes keeps the memory within the parameters (30_encoding.md R93 to R95). -/
theorem Memory.fits_assembled {c : Config} (hc : c.Legal) {m : Memory} (hm : Memory.Fits c m) {program : List Text}
    {words : List Int} (h : assemble c program = .ok words) : Memory.Fits c (m.writeFrom 0 words) := by
  obtain ⟨-, hlength, hwords⟩ := assembledWordsAreInstructions c program words h
  refine Memory.fits_writeFrom hm (by omega) fun w hw => ?_
  obtain ⟨h0, h902, -⟩ := hwords w hw
  exact hc.inRange_instructionWord h0 h902

namespace State.Wf

variable {s : State}

/-- A reset keeps the parameters and the channel, and reads everything else off them. -/
theorem reset_wf (h : s.Wf) : (hostReset s).Wf := by
  obtain ⟨hlegal, -, -, -, -, -, -, -, -, -, hin, -⟩ := h
  exact State.initial_wf hlegal hin

/-- A start of a machine without a fault, whose PC is then in `0 .. N`. -/
theorem start_wf (h : s.Wf) (hfault : s.fault = .none) : ({ s with run := .running } : State).Wf := by
  obtain ⟨hlegal, hmem, hpc, hpcRange, hmar, hmdr, hcir, hacc, -, hover, hin, hout⟩ := h
  refine ⟨hlegal, hmem, .inl ?_, hpcRange, hmar, hmdr, hcir, hacc, fun _ => hfault, hover, hin, hout⟩
  rcases hpc with hpc | ⟨-, -, houtside, -⟩
  · exact hpc
  · exact absurd (hfault.symm.trans houtside) nofun

theorem withMem_wf (h : s.Wf) {m : Memory} (hm : Memory.Fits s.cfg m) : ({ s with mem := m } : State).Wf := by
  obtain ⟨hlegal, -, hrest⟩ := h
  exact ⟨hlegal, hm, hrest⟩

theorem append_wf (h : s.Wf) {item : InputItem} (hitem : item.Fits s.cfg) :
    ({ s with input := s.input ++ [item] } : State).Wf := by
  obtain ⟨hlegal, hmem, hpc, hpcRange, hmar, hmdr, hcir, hacc, hfault, hover, hin, hout⟩ := h
  exact ⟨hlegal, hmem, hpc, hpcRange, hmar, hmdr, hcir, hacc, hfault, hover,
    List.forall_mem_append.2 ⟨hin, List.forall_mem_singleton.2 hitem⟩, hout⟩

end State.Wf

/-- Settles O45: a cycle is a step; any other event resets or starts the machine, writes words to cells of its memory, or
appends an item the channel may hold. -/
theorem everyEventKeepsWellFormed : Obligations.EveryEventKeepsWellFormed := by
  intro e s h
  obtain ⟨hlegal, hmem, -⟩ := id h
  by_cases he : e = .cycle
  · obtain ⟨s', hs⟩ := step_answers s
    have hafter : State.after e s = s' := by simp only [he, State.after, hs]
    exact hafter ▸ stepKeepsWellFormed s s' h hs
  · rcases after_cases he s with hs | ⟨-, hs⟩ | ⟨-, hfault, hs⟩ | ⟨a, v, -, ⟨hlo, hhi⟩, hv, hs⟩ |
      ⟨program, words, -, hwords, hs⟩ | ⟨item, hs⟩ | ⟨line, hs⟩ <;>
      rw [hs]
    · exact h
    · exact h.reset_wf
    · exact h.start_wf hfault
    · exact h.withMem_wf (Memory.fits_write hmem (by omega) hv)
    · exact h.withMem_wf (Memory.fits_assembled hlegal hmem hwords)
    · exact h.append_wf (InputItem.fitted_fits s.cfg item)
    · exact h.append_wf (readInputLine_fits s.cfg line)

end Machine

end Sys2Proof

/-! Proofs. The overflow (41_arithmetic.md R122, U7): which accumulation, which instruction and which cycle raises it. -/

namespace Sys2Proof.Machine

/-- The next cycle is an ADD or SUB whose exact result no word holds, under the policy `fault`. -/
abbrev State.Overflows (s : State) : Prop :=
  s.cfg.overflow = .fault ∧ ∃ t : Nat, t ≤ 99 ∧ t < s.cfg.cells ∧
    ((s.AtWord (100 + t) ∧ ¬ s.cfg.InRange (s.acc + s.mem.read t)) ∨
     (s.AtWord (200 + t) ∧ ¬ s.cfg.InRange (s.acc - s.mem.read t)))

section
variable {s s' : State}

/-- An accumulation that latches the overflow had a result no word holds, under the policy `fault`. -/
theorem overflow_of_accumulate {exact : Int} (hs : accumulate exact s = .next s') (h0 : s.fault ≠ .overflow)
    (hover : s'.fault = .overflow) : s.cfg.overflow = .fault ∧ ¬ s.cfg.InRange exact := by
  rcases accumulate_cases exact s with ⟨-, ha⟩ | ⟨hpolicy, hout, -⟩
  · obtain rfl := Host.Outcome.next.inj (ha.symm.trans hs)
    exact absurd hover h0
  · exact ⟨hpolicy, hout⟩

/-- An instruction that latches the overflow is an ADD or SUB with its operand in memory. -/
theorem overflow_of_exec {i : Instr} (hs : exec i s = .next s') (h0 : s.fault ≠ .overflow) (hover : s'.fault = .overflow) :
    s.cfg.overflow = .fault ∧ ∃ t, t < s.cfg.cells ∧
      ((i = .add t ∧ ¬ s.cfg.InRange (s.acc + s.mem.read t)) ∨ (i = .sub t ∧ ¬ s.cfg.InRange (s.acc - s.mem.read t))) := by
  obtain ⟨-, -, -, -, -, -, -, -, -, hkept, -⟩ := execWritesOnlyWhatTheMatrixNames i s s' hs
  rcases exec_cases i s with ⟨t, -, -, he⟩ | ⟨hin, s1, he, heff⟩ <;>
    obtain rfl := Host.Outcome.next.inj (he.symm.trans hs)
  · cases hover
  · cases i with
    | add t =>
      obtain ⟨hpolicy, hout⟩ := overflow_of_accumulate heff h0 hover
      exact ⟨hpolicy, t, hin t rfl, .inl ⟨rfl, hout⟩⟩
    | sub t =>
      obtain ⟨hpolicy, hout⟩ := overflow_of_accumulate heff h0 hover
      exact ⟨hpolicy, t, hin t rfl, .inr ⟨rfl, hout⟩⟩
    | _ =>
      obtain ⟨hfault, -⟩ := hkept hin (.inr ⟨nofun, nofun⟩)
      exact absurd (hfault.symm.trans hover) h0

/-- A cycle that latches the overflow is at the word of an ADD or SUB. -/
theorem State.Overflows.of_step (hs : step s = .next s') (h0 : s.fault ≠ .overflow) (hover : s'.fault = .overflow) :
    s.Overflows := by
  rcases step_cases s with ⟨-, h⟩ | ⟨-, -, h⟩ | ⟨w, r, -, -, h⟩ | ⟨-, h⟩ | ⟨w, i, hw, hd, -, h⟩
  · exact absurd (Host.Outcome.next.inj (h.symm.trans hs) ▸ hover) h0
  · obtain rfl := Host.Outcome.next.inj (h.symm.trans hs)
    cases hover
  · obtain rfl := Host.Outcome.next.inj (h.symm.trans hs)
    cases hover
  · exact absurd (Host.Outcome.next.inj (h.symm.trans hs) ▸ hover) h0
  · obtain ⟨hpolicy, t, hcell, ⟨rfl, hout⟩ | ⟨rfl, hout⟩⟩ := overflow_of_exec (h.symm.trans hs) h0 hover <;>
      have ht : t ≤ 99 := decode_instr_operand_le hd rfl <;>
      obtain ⟨-, hword⟩ := decode_instr_of_operand hd rfl
    · obtain rfl : 100 + (t : Int) = w := by simpa [encode] using hword
      exact ⟨hpolicy, t, ht, hcell, .inl ⟨hw, hout⟩⟩
    · obtain rfl : 200 + (t : Int) = w := by simpa [encode] using hword
      exact ⟨hpolicy, t, ht, hcell, .inr ⟨hw, hout⟩⟩

/-- A cycle of such an ADD or SUB latches the overflow. -/
theorem State.Overflows.step_fault (h : s.Overflows) (hs : step s = .next s') : s'.fault = .overflow := by
  obtain ⟨hpolicy, t, ht, hcell, ⟨hw, hout⟩ | ⟨hw, hout⟩⟩ := h
  · rw [step_of_instr hw (decode_add ht) nofun] at hs
    obtain ⟨-, hadd, -, -⟩ := overflowPolicyFaultStopsOnlyOnOverflow (s.fetched (100 + t)) t hcell hpolicy
    exact Host.Outcome.next.inj ((hadd hout).symm.trans hs) ▸ rfl
  · rw [step_of_instr hw (decode_sub ht) nofun] at hs
    obtain ⟨-, -, -, hsub⟩ := overflowPolicyFaultStopsOnlyOnOverflow (s.fetched (200 + t)) t hcell hpolicy
    exact Host.Outcome.next.inj ((hsub hout).symm.trans hs) ▸ rfl

end

/-- Settles O16: every step answers, and it latches the overflow exactly at an ADD or SUB that overflows. -/
theorem everyCycleAnswers : Obligations.EveryCycleAnswers := by
  intro s
  obtain ⟨s', hs⟩ := step_answers s
  exact ⟨s', hs, fun h0 => ⟨State.Overflows.of_step hs h0, fun h => State.Overflows.step_fault h hs⟩⟩

end Sys2Proof.Machine

/-! Proofs. The host's operations (70_reset_and_hazards.md R203 to R206): all are refused while the machine runs; on a halted one,
what start, poke and assemble do. -/

namespace Sys2Proof.Machine

theorem whileHalted_of_running {α : Type} {s : State} (hrun : s.run = .running) (reply : HostReply α) :
    whileHalted s reply = .refused .notHalted := by
  simp only [whileHalted, hrun]

theorem whileHalted_of_halted {α : Type} {s : State} (hrun : s.run = .halted) (reply : HostReply α) :
    whileHalted s reply = reply := by
  simp only [whileHalted, hrun]

/-- Settles O49: each of the four operations is one that a halted machine alone performs. -/
theorem hostIsShutOutWhileRunning : Obligations.HostIsShutOutWhileRunning :=
  fun _ _ _ _ hrun => ⟨whileHalted_of_running hrun _, whileHalted_of_running hrun _, whileHalted_of_running hrun _,
    whileHalted_of_running hrun _⟩

/-- Settles O50: the two answers of a start on a halted machine. -/
theorem startSetsRunOnly : Obligations.StartSetsRunOnly :=
  fun _ hrun => ⟨hostStart_of_noFault hrun, hostStart_of_fault hrun⟩

/-- A poke of a word to a cell of a halted machine is performed. -/
theorem hostPoke_of_fits {s : State} {a v : Int} (hrun : s.run = .halted) (ha : inBounds s.cfg a) (hv : s.cfg.InRange v) :
    hostPoke a v s = .done { s with mem := s.mem.write a.toNat v } := by
  simp only [hostPoke, whileHalted_of_halted hrun, memWrite, if_pos ha, if_pos hv]

/-- Settles O51: a poke that fits is one write, read back by the rule of reading after a write; a poke that is performed fits. -/
theorem pokeWritesOneCell : Obligations.PokeWritesOneCell := by
  intro s a v hrun hm
  refine ⟨fun hlo hhi hv => ⟨s.mem.write a.toNat v, hostPoke_of_fits hrun ⟨hlo, hhi⟩ hv, Memory.wf_write hm a.toNat v,
    fun b => ?_⟩, fun hout => ?_⟩
  · have haddress : b = a.toNat ↔ (b : Int) = a := by omega
    rw [Memory.read_write hm]
    exact if_congr haddress rfl rfl
  · rcases hostPoke_cases a v s with hrefused | ⟨-, ⟨hlo, hhi⟩, hv, -⟩
    · exact hrefused
    · rcases hout with hneg | hbig | hrange
      · omega
      · omega
      · exact absurd hv hrange

theorem hostAssemble_of_ok {s : State} {program : List Text} {words : List Int} (hrun : s.run = .halted)
    (h : assemble s.cfg program = .ok words) :
    hostAssemble program s = .done { s with mem := s.mem.writeFrom 0 words } := by
  simp only [hostAssemble, whileHalted_of_halted hrun, h]

theorem hostAssemble_of_error {s : State} {program : List Text} {e : AsmError} (hrun : s.run = .halted)
    (h : assemble s.cfg program = .error e) : hostAssemble program s = .refused (.assembly e) := by
  simp only [hostAssemble, whileHalted_of_halted hrun, h]

/-- Reading after words were written from cell `a` on, in a canonical memory. -/
theorem Memory.read_writeFrom {m : Memory} (hm : Memory.wf m = true) (a : Nat) (words : List Int) (b : Nat) :
    Memory.read (m.writeFrom a words) b = if a ≤ b then (words[b - a]?).getD (m.read b) else m.read b := by
  induction words generalizing m a with
  | nil => simp [Memory.writeFrom]
  | cons w words ih =>
    rw [Memory.writeFrom, ih (Memory.wf_write hm a w), Memory.read_write hm]
    rcases lt_trichotomy b a with hlt | rfl | hgt
    · rw [if_neg (by omega), if_neg hlt.ne, if_neg (by omega)]
    · simp
    · obtain ⟨k, rfl⟩ := Nat.exists_eq_add_of_lt hgt
      have htail : a + k + 1 - (a + 1) = k := by omega
      have hindex : a + k + 1 - a = k + 1 := by omega
      rw [if_pos (by omega), if_neg hgt.ne', if_pos hgt.le, htail, hindex, List.getElem?_cons_succ]

/-- Settles O52: the assembler's answer decides, and its words are read back from cell 0 on. -/
theorem assembleWritesCellsFromZero : Obligations.AssembleWritesCellsFromZero := by
  intro s program hrun hm
  refine ⟨fun words h => ⟨s.mem.writeFrom 0 words, hostAssemble_of_ok hrun h, Memory.wf_writeFrom hm 0 words, fun a => ?_⟩,
    fun e h => hostAssemble_of_error hrun h⟩
  rw [Memory.read_writeFrom hm, if_pos a.zero_le, Nat.sub_zero]

end Sys2Proof.Machine

/-! Proofs. The placing of a word for the next fetch (log 17, 18): the machine stands at that word, and does not wait. -/

namespace Sys2Proof.Machine

/-- The next fetch of a machine with a cell is aimed at a cell. -/
theorem inBounds_fetchAddress {s : State} (hcells : 1 ≤ s.cfg.cells) : inBounds s.cfg (fetchAddress s) := by
  unfold fetchAddress
  split
  · assumption
  · exact ⟨le_rfl, by omega⟩

/-- The word is where the next fetch reads. -/
theorem loadFetchWord_atWord {s : State} (hcells : 1 ≤ s.cfg.cells) (hm : Memory.wf s.mem = true) (w : Int) :
    (loadFetchWord w s).AtWord w := by
  have hread : (loadFetchWord w s).mem.read (fetchAddress s).toNat = w := by
    simp [Memory.read_write hm]
  have hin : inBounds (loadFetchWord w s).cfg (loadFetchWord w s).pc := inBounds_fetchAddress hcells
  exact ⟨rfl, (memRead_of_inBounds hin).trans (congrArg some hread)⟩

/-- An INP finds an item to take. -/
theorem inputReady_ne_nil {w : Int} (hop : decodeOp w = .inp) (items : List InputItem) : inputReady w items ≠ [] := by
  unfold inputReady
  split
  · nofun
  · next hready => exact fun hempty => hready ⟨hop, hempty⟩

/-- Settles O56: the machine stands at the word with the input an INP needs, so the cycle runs the decoded instruction. -/
theorem placedWordRunsNext : Obligations.PlacedWordRunsNext := by
  refine ⟨fun s nbits w hcells hm => ?_, fun nbits w i => instr?_eq_some _ i⟩
  have hw := loadFetchWord_atWord hcells hm (wordOfBits s.cfg.width w)
  refine ⟨hw, fun i hd => step_of_instr hw hd ?_⟩
  rintro ⟨rfl, hempty⟩
  exact inputReady_ne_nil (decode_instr_op hd).symm s.input hempty

end Sys2Proof.Machine
